-- ==== Sys2Proof/Word.lean ====
section
/-!
DEFINITION. The widths of the machine (00_scope.md rule R6): every register, memory cell, instruction
word and the IR is 16 bits; an opcode or register field is a nibble; an address is 8 bits; the PC is
9 bits (92_eei_decisions.md D1).
-/

namespace Sys2Proof

/-- A 16-bit pattern: a register, a memory cell, an instruction word, the IR (rules R6, R8). -/
abbrev Word := BitVec 16

/-- A 4-bit field: the opcode, R, S or T (rule R61). -/
abbrev Nibble := BitVec 4

/-- The 8-bit field XY, an address or an immediate (rules R61, R65). -/
abbrev Addr := BitVec 8

/-- The program counter: 9 bits, so that it can hold 256 (rule R24, D1). -/
abbrev Pc := BitVec 9

end Sys2Proof
end

