-- ==== Sys2Proof/Config.lean ====
section
/-!
DEFINITION. What is fixed for the machine: the parameter table of 00_scope.md rule R6, and the one
parameter inside the core that 92_eei_decisions.md marks OPEN (D4). The spec leaves no result of an
instruction open, so there is no free value here (93_implementation_defined.md part 2).
-/

namespace Sys2Proof.Config

/-- NREG: the number of registers (rule R6). -/
def nreg : Nat := 16

/-- MEMCELLS: the number of memory cells (rule R6). -/
def memCells : Nat := 256

/-- The number of values the 9-bit PC can hold; the host's setter accepts these (rule R34, D1). -/
def pcValues : Nat := 512

/-- What a reserved value of the sub-field S does in opcodes 6 and 9: the values the spec names for its
parameter `reserved_subfield_policy` (D4, U4). -/
inductive SubfieldPolicy where
  | nop      -- the execute step changes nothing
  | invalid  -- the word is treated as an invalid instruction
  deriving DecidableEq, Repr

/-- `reserved_subfield_policy`, at the value rules R69, R119 and R142 give it: no-op. -/
def reservedSubfieldPolicy : SubfieldPolicy := .nop

end Sys2Proof.Config
end

