-- ==== Sys2Proof/Syntax.lean ====
section
/-!
DEFINITION. The instruction set: one constructor per row of spec/opcode_table.json (30_encoding.md rule
R73, 29 rows). A constructor carries the fields its row uses and none of the ignored ones: words that
differ only in an ignored field are the same instruction (rule R70).
-/

namespace Sys2Proof

/-- An instruction. `r`, `s`, `t` are the fields R, S, T; `a`, `imm` are XY used as an address or an
immediate; in the NOP rows `s` is the selector whose value picks the row. -/
inductive Instr where
  | load (r : Nibble) (a : Addr)          -- LOAD Rr, [a]         rule R100
  | loadImm (r : Nibble) (imm : Addr)     -- LOAD_IMM Rr, imm     rule R101
  | outs (r : Nibble)                     -- OUTS Rr              rule R103
  | store (r : Nibble) (a : Addr)         -- STORE Rr, [a], a ≠ 0 rule R102
  | move (r s : Nibble)                   -- MOVE Rr, Rs          rule R104
  | add (r t : Nibble)                    -- ADD Rr, Rt           rule R112
  | sub (r t : Nibble)                    -- SUB Rr, Rt           rule R113
  | nop5 (s : Nibble)                     -- opcode 5, S ≥ 2      rule R114
  | bitAnd (r t : Nibble)                 -- AND Rr, Rt           rule R115
  | bitOr (r t : Nibble)                  -- OR Rr, Rt            rule R116
  | bitXor (r t : Nibble)                 -- XOR Rr, Rt           rule R117
  | bitNot (r : Nibble)                   -- NOT Rr               rule R118
  | nop6 (s : Nibble)                     -- opcode 6, S ≥ 4      rule R119
  | shl (r : Nibble)                      -- SHL Rr               rule R120
  | shr (r : Nibble)                      -- SHR Rr               rule R121
  | nop7 (s : Nibble)                     -- opcode 7, S ≥ 2      rule R122
  | jz (r t : Nibble)                     -- JZ Rr, 0x0t          rule R131
  | jmp (t : Nibble)                      -- JMP 0x1t             rule R132
  | nop8 (s : Nibble)                     -- opcode 8, S ≥ 2      rule R133
  | inp (r : Nibble)                      -- IN Rr                rule R140
  | out (r : Nibble)                      -- OUT Rr               rule R141
  | nop9 (s : Nibble)                     -- opcode 9, S ≥ 2      rule R142
  | jeq (r s t : Nibble)                  -- JEQ Rr, Rs, 0xst     rule R134
  | halt                                  -- HALT                 rule R150
  | invalid0                              -- opcode 0             rule R151
  | invalid10                             -- opcode 10            rule R151
  | invalid13                             -- opcode 13            rule R151
  | invalid14                             -- opcode 14            rule R151
  | invalid15                             -- opcode 15            rule R151
  deriving DecidableEq, Repr

end Sys2Proof
end

