-- ==== Sys2Proof/Machine/State.lean ====
section
/-!
DEFINITION. The state of the machine, exactly the list of 10_state.md rule R20, as plain data; why a step
stops without a next state; and the machine at its creation (rules R33, R181).
-/

namespace Sys2Proof.Machine

/-- `RUN`: the two states of the engine (rules R30, R81). HALTED is also the idle state before the first
run. -/
inductive RunState where
  | halted
  | running
  deriving DecidableEq, Repr

/-- `STOP_REASON` (rules R30, R161). `none`: no stop since reset or since execute began. -/
inductive StopReason where
  | none
  | halt
  | invalid
  | pcExhausted
  deriving DecidableEq, Repr

/-- The Memory: its 256 cells of 16 bits (rules R28, R43) as the list of the (address, pattern) pairs
of the cells that do not hold what an unlisted cell reads as, addresses strictly rising. DESIGN CHOICE: see
notes/assumptions/1.md. -/
abbrev Memory := List (Nat × Word)

/-- The complete state (rule R20). -/
structure State where
  /-- the Register File, `x[0]` to `x[15]` (rule R21) -/
  x : Vector Word 16
  /-- the Memory (rule R28) -/
  mem : Memory
  /-- the Program Counter (rule R24) -/
  pc : Pc
  /-- the Instruction Register (rule R27) -/
  ir : Word
  /-- `RUN` (rule R30) -/
  run : RunState
  /-- `STOP_REASON` (rule R30) -/
  stopReason : StopReason
  /-- `BAD_OPCODE` (rule R30) -/
  badOpcode : Nibble
  /-- the input source: the values the environment has delivered and IN has not yet read, next one
  first (rules R31, R144); notes/assumptions/4.md -/
  input : List Word
  /-- the output event trace, oldest first (rules R31, R143) -/
  output : List Word
  deriving DecidableEq, Repr

/-- Why the machine has no next state. -/
inductive Fault where
  /-- Raised by the step in a state with RUN = 0: "When `RUN = 0` the engine has no step" (rule R90).
  Safe: nothing is claimed of a stopped machine but that it does not step (notes/assumptions/6.md). -/
  | notRunning
  deriving DecidableEq, Repr

/-- Why the model gives a request no meaning. -/
inductive Refusal where
  /-- Raised by an arm of exec whose instruction has no meaning yet; no arm raises it now. Safe. -/
  | notModelled (mnemonic : String)
  /-- Raised by a host operation or a host read that needs RUN = 0, while RUN = 1 (rules R34, R177, D9). Safe. -/
  | hostWhileRunning
  /-- Raised by a host operation or a host read whose index is outside its range (rules R34, R163, D18). Safe. -/
  | hostIndexOutOfRange
  deriving DecidableEq, Repr

/-- The machine at its creation, which is the state after the reset operation (rules R33, R181). The two
streams belong to the environment and the spec gives them no initial value; DESIGN CHOICE: nothing delivered
yet and nothing emitted yet (notes/assumptions/3.md). -/
def State.reset : State where
  x := Vector.replicate 16 0
  mem := []
  pc := 0
  ir := 0
  run := .halted
  stopReason := .none
  badOpcode := 0
  input := []
  output := []

end Sys2Proof.Machine
end

