-- ==== Sys2Proof/Machine/Ops.lean ====
section
/-!
DEFINITION. The named operations over memory, registers, the PC, the two streams and the run-control state:
the primitives of 00_scope.md rule R10. A stop (`raise`) is one shared operation, and starting a run, the
nearest thing the machine has to a return (60_exceptions.md rule R168), stands beside it.
-/

namespace Sys2Proof.Machine

/-! ### Memory (20_memory.md) -/

/-- What a cell that is not listed reads as: 0, the reset contents of every cell (rules R33, R42). -/
def Memory.unlisted : Word := 0

/-- `MemRead(a, 16)`: total, no side effect (rule R42). -/
def Memory.read (m : Memory) (a : Addr) : Word := (m.lookup a.toNat).getD Memory.unlisted

/-- The memory with cell `k` unlisted. -/
def Memory.without (m : Memory) (k : Nat) : Memory := m.filter fun c => c.1 != k

/-- The memory with cell `k` listed as `v`, at its place among rising addresses. -/
def Memory.place : Memory → Nat → Word → Memory
  | [], k, v => [(k, v)]
  | c :: m, k, v => if k < c.1 then (k, v) :: c :: m else c :: Memory.place m k v

/-- `MemWrite(a, 16, v)`: cell `a` holds `v`, every other cell is unchanged (rule R42). A cell that gets
the unlisted value leaves the list, so equal memories are equal lists. -/
def Memory.write (m : Memory) (a : Addr) (v : Word) : Memory :=
  if v = Memory.unlisted then m.without a.toNat else (m.without a.toNat).place a.toNat v

/-- The canonical form: addresses strictly rising, each a cell index 0..255 (rule R40), and no entry equal
to what an unlisted cell reads as. -/
abbrev Memory.wf (m : Memory) : Prop :=
  m.Pairwise (fun b c => b.1 < c.1) ∧ ∀ c ∈ m, c.1 < Config.memCells ∧ c.2 ≠ Memory.unlisted

/-- The pattern of cell `a`. -/
def State.cell (s : State) (a : Addr) : Word := s.mem.read a

/-- Replace the contents of cell `a`. -/
def State.setCell (s : State) (a : Addr) (v : Word) : State := { s with mem := s.mem.write a v }

/-! ### Registers, PC, IR -/

/-- `x[r]` (rule R21): no register is hard-wired. -/
def State.reg (s : State) (r : Nibble) : Word := s.x[r.toNat]'r.isLt

/-- `x[r] <- v` (rule R21). -/
def State.setReg (s : State) (r : Nibble) (v : Word) : State :=
  { s with x := s.x.set r.toNat v r.isLt }

/-- `pc <- p`. -/
def State.setPc (s : State) (p : Pc) : State := { s with pc := p }

/-- `ir <- w`. -/
def State.setIr (s : State) (w : Word) : State := { s with ir := w }

/-! ### The two streams (44_io.md) -/

/-- `Output(v)`: append one event to the output event trace (rule R143). -/
def State.emit (s : State) (v : Word) : State := { s with output := s.output ++ [v] }

/-- The next input value, if one is available (rule R144). -/
def State.nextInput (s : State) : Option Word := s.input.head?

/-- Remove the first element of the input source (rule R144). -/
def State.dropInput (s : State) : State := { s with input := s.input.tail }

/-- The environment delivers a value; it may do so at any time between steps (rules R80, R191). -/
def State.deliver (s : State) (v : Word) : State := { s with input := s.input ++ [v] }

/-! ### Run control (60_exceptions.md) -/

/-- What every stop does: `RUN <- 0` and `STOP_REASON <-` the reason, nothing else (rule R166). -/
def State.stop (s : State) (reason : StopReason) : State :=
  { s with run := .halted, stopReason := reason }

/-- `raise InvalidOpcode(op)`: a stop that also records the opcode (rules R151, R166). -/
def State.stopInvalid (s : State) (op : Nibble) : State :=
  { s.stop .invalid with badOpcode := op }

/-- What execute() does to the state: a run begins at the current PC and nothing else changes (rules R82,
R168). -/
def State.startRun (s : State) : State :=
  { s with run := .running, stopReason := .none, badOpcode := 0 }

/-- What the reset operation does: registers, memory, PC, IR and run control to zero, the streams untouched
(rules R180, R183). -/
def State.cleared (s : State) : State :=
  { s with x := Vector.replicate 16 0, mem := [], pc := 0, ir := 0, run := .halted,
           stopReason := .none, badOpcode := 0 }

/-! ### The fetch (40_execution_cycle.md) -/

/-- The loop guard: a cycle begins only if `pc < 256` (rule R83). -/
def State.pcInMemory (s : State) : Bool := decide (s.pc.toNat < Config.memCells)

/-- The cell the fetch reads: `pc[7:0]` (rule R41). -/
def State.fetchAddr (s : State) : Addr := s.pc.setWidth 8

/-- The word the fetch reads. -/
def State.fetchWord (s : State) : Word := s.cell s.fetchAddr

/-- The fetch: `ir <- MemRead(pc, 16); pc <- pc + 1`, nine bits, so 255 is followed by 256 (rules R26,
R84). -/
def State.fetch (s : State) : State := (s.setIr s.fetchWord).setPc (s.pc + 1)

end Sys2Proof.Machine
end

