-- ==== Sys2Proof/Machine/Arith.lean ====
section
/-!
DEFINITION. The operations of the ALU and no others (42_alu.md rule R124): signed 16-bit arithmetic with
wraparound, bitwise logic on patterns, shifts by one.
-/

namespace Sys2Proof.Machine

/-- `wrap16`: one correction by 65536 (rule R110). -/
def wrap16 (n : Int) : Int :=
  if n > 32767 then n - 65536 else if n < -32768 then n + 65536 else n

/-- `bv16(wrap16(s(a) + s(b)))` (rule R112). -/
def aluAdd (a b : Word) : Word := BitVec.ofInt 16 (wrap16 (a.toInt + b.toInt))

/-- `bv16(wrap16(s(a) - s(b)))` (rule R113). -/
def aluSub (a b : Word) : Word := BitVec.ofInt 16 (wrap16 (a.toInt - b.toInt))

/-- Bit-by-bit AND (rule R115). -/
def aluAnd (a b : Word) : Word := a &&& b

/-- Bit-by-bit OR (rule R116). -/
def aluOr (a b : Word) : Word := a ||| b

/-- Bit-by-bit exclusive OR (rule R117). -/
def aluXor (a b : Word) : Word := a ^^^ b

/-- Every bit inverted (rule R118). -/
def aluNot (a : Word) : Word := ~~~a

/-- `a[14:0] ‖ 0`: the bit shifted out of bit 15 is discarded (rule R120, D3; notes/assumptions/11.md). -/
def aluShl (a : Word) : Word := a.extractLsb' 0 15 ++ 0#1

/-- `a[15] ‖ a[15:1]`: arithmetic shift right by one (rule R121, G2; PRESUMED by the spec itself,
notes/assumptions/20.md). -/
def aluShr (a : Word) : Word := a.extractLsb' 15 1 ++ a.extractLsb' 1 15

end Sys2Proof.Machine
end

