-- ==== Sys2Proof/Machine/Operands.lean ====
section
/-!
DEFINITION. The operand forms of 30_encoding.md rule R65: the one immediate XY used as data, as an address
or as a jump target, never sign-extended, scaled or shifted; and the register operands.
-/

namespace Sys2Proof.Machine

/-- The data immediate: `zext_16(XY)` (rules R65, R101). -/
def immData (imm : Addr) : Word := imm.setWidth 16

/-- A jump target: `zext_9(XY)` (rules R65, R130). -/
def jumpTarget (xy : Addr) : Pc := xy.setWidth 9

/-- XY of a word whose nibbles are S and T: `XY = S ‖ T` (rule R61). -/
def xyOf (s t : Nibble) : Addr := s ++ t

/-- The target of JZ: S = 0 is the high nibble (rules R131, R136). -/
def targetJz (t : Nibble) : Pc := jumpTarget (xyOf 0 t)

/-- The target of JMP: S = 1 is the high nibble (rules R132, R136). -/
def targetJmp (t : Nibble) : Pc := jumpTarget (xyOf 1 t)

/-- The target of JEQ: the S nibble is used twice (rules R134, R136). -/
def targetJeq (s t : Nibble) : Pc := jumpTarget (xyOf s t)

/-- A one-operand instruction: `x[R] <- f(x[R])`. -/
def State.updateReg (s : State) (f : Word → Word) (r : Nibble) : State := s.setReg r (f (s.reg r))

/-- A two-address instruction: `x[R] <- f(x[R], x[T])`, both read before the write (rule R22). -/
def State.combineRegs (s : State) (f : Word → Word → Word) (r t : Nibble) : State :=
  s.setReg r (f (s.reg r) (s.reg t))

end Sys2Proof.Machine
end

