-- ==== Sys2Proof/Machine/Reserved.lean ====
section
/-!
DEFINITION. What a reserved value of the sub-field S does in the execute step (30_encoding.md rule R69):
shared by NOP5 to NOP9. The fetch has already happened.
-/

namespace Sys2Proof.Machine

/-- The execute step changes nothing; the machine keeps running (rule R69). -/
def noEffect (s : State) : Host.Outcome State Fault Refusal := .next s

/-- A reserved S in an opcode whose treatment is the parameter `reserved_subfield_policy` (D4, U4). The
policy `invalid` is the INVALID stop with that opcode (DEDUCED, notes/assumptions/10.md). -/
def reservedSubfield (op : Nibble) (s : State) : Host.Outcome State Fault Refusal :=
  match Config.reservedSubfieldPolicy with
  | .nop => noEffect s
  | .invalid => .next (s.stopInvalid op)

end Sys2Proof.Machine
end

