-- ==== Sys2Proof/Machine/Alu.lean ====
section
/-!
DEFINITION. The meanings of opcodes 5, 6 and 7 (42_alu.md): the execute step only. No instruction here
records a flag or can stop.
-/

namespace Sys2Proof.Machine

/-- ADD: `x[R] <- bv16(wrap16(s(x[R]) + s(x[T])))` (rule R112). -/
def execAdd (r t : Nibble) (s : State) : Host.Outcome State Fault Refusal :=
  .next (s.combineRegs aluAdd r t)

/-- SUB: `x[R] <- bv16(wrap16(s(x[R]) - s(x[T])))` (rule R113). -/
def execSub (r t : Nibble) (s : State) : Host.Outcome State Fault Refusal :=
  .next (s.combineRegs aluSub r t)

/-- NOP5: nothing (rule R114). -/
def execNop5 (s : State) : Host.Outcome State Fault Refusal :=
  noEffect s

/-- AND: `x[R] <- x[R] AND x[T]` (rule R115). -/
def execAnd (r t : Nibble) (s : State) : Host.Outcome State Fault Refusal :=
  .next (s.combineRegs aluAnd r t)

/-- OR: `x[R] <- x[R] OR x[T]` (rule R116). -/
def execOr (r t : Nibble) (s : State) : Host.Outcome State Fault Refusal :=
  .next (s.combineRegs aluOr r t)

/-- XOR: `x[R] <- x[R] XOR x[T]` (rule R117). -/
def execXor (r t : Nibble) (s : State) : Host.Outcome State Fault Refusal :=
  .next (s.combineRegs aluXor r t)

/-- NOT: `x[R] <- NOT x[R]` (rule R118). -/
def execNot (r : Nibble) (s : State) : Host.Outcome State Fault Refusal :=
  .next (s.updateReg aluNot r)

/-- NOP6: the reserved values of S in opcode 6 (rule R119, D4). -/
def execNop6 (s : State) : Host.Outcome State Fault Refusal :=
  reservedSubfield 6 s

/-- SHL: `x[R] <- x[R][14:0] ‖ 0` (rule R120). -/
def execShl (r : Nibble) (s : State) : Host.Outcome State Fault Refusal :=
  .next (s.updateReg aluShl r)

/-- SHR: `x[R] <- x[R][15] ‖ x[R][15:1]` (rule R121). -/
def execShr (r : Nibble) (s : State) : Host.Outcome State Fault Refusal :=
  .next (s.updateReg aluShr r)

/-- NOP7: nothing (rule R122). -/
def execNop7 (s : State) : Host.Outcome State Fault Refusal :=
  noEffect s

end Sys2Proof.Machine
end

