-- ==== Sys2Proof/Machine/Flags.lean ====
section
/-!
DEFINITION. There are no flags: no instruction records carry, overflow, sign or zero (10_state.md rule R29,
42_alu.md rule R123). The conditional jumps test register values directly; the two tests stand here.
-/

namespace Sys2Proof.Machine

/-- JZ's test: `x[R] = 0x0000` (rules R29, R131). -/
def State.regIsZero (s : State) (r : Nibble) : Bool := s.reg r == 0

/-- JEQ's test: equality of the 16-bit patterns (rules R29, R134). -/
def State.regsEqual (s : State) (r q : Nibble) : Bool := s.reg r == s.reg q

end Sys2Proof.Machine
end

