-- ==== Sys2Proof/Machine/ControlTransfer.lean ====
section
/-!
DEFINITION. The meanings of opcodes 8 and 11 (43_control_transfer.md): the execute step only, in which `pc`
already holds the instruction's own address plus one (rule R87).
-/

namespace Sys2Proof.Machine

/-- A jump: taken, it assigns the PC and does nothing else; not taken, it does nothing (rule R130). -/
def State.jumpIf (s : State) (taken : Bool) (target : Pc) : State :=
  if taken then s.setPc target else s

/-- JZ: `if x[R] = 0x0000 then pc <- zext_9(XY)` (rule R131). -/
def execJz (r t : Nibble) (s : State) : Host.Outcome State Fault Refusal :=
  .next (s.jumpIf (s.regIsZero r) (targetJz t))

/-- JMP: `pc <- zext_9(XY)` (rule R132). -/
def execJmp (t : Nibble) (s : State) : Host.Outcome State Fault Refusal :=
  .next (s.jumpIf true (targetJmp t))

/-- NOP8: nothing; `pc` keeps the incremented value (rule R133). -/
def execNop8 (s : State) : Host.Outcome State Fault Refusal :=
  noEffect s

/-- JEQ: `if x[R] = x[S] then pc <- zext_9(XY)` (rule R134). -/
def execJeq (r q t : Nibble) (s : State) : Host.Outcome State Fault Refusal :=
  .next (s.jumpIf (s.regsEqual r q) (targetJeq q t))

end Sys2Proof.Machine
end

