-- ==== Sys2Proof/Machine/DataMovement.lean ====
section
/-!
DEFINITION. The meanings of LOAD, LOAD_IMM, STORE, OUTS and MOVE (41_data_movement.md): the execute step
only; the fetch has already written `ir` and advanced `pc`.
-/

namespace Sys2Proof.Machine

/-- LOAD: `x[R] <- MemRead(XY, 16)` (rule R100). -/
def execLoad (r : Nibble) (a : Addr) (s : State) : Host.Outcome State Fault Refusal :=
  .next (s.setReg r (s.cell a))

/-- LOAD_IMM: `x[R] <- zext_16(XY)` (rule R101). -/
def execLoadImm (r : Nibble) (imm : Addr) (s : State) : Host.Outcome State Fault Refusal :=
  .next (s.setReg r (immData imm))

/-- STORE: `MemWrite(XY, 16, x[R])` (rule R102). -/
def execStore (r : Nibble) (a : Addr) (s : State) : Host.Outcome State Fault Refusal :=
  .next (s.setCell a (s.reg r))

/-- OUTS: `Output(x[R])`; memory is not touched (rule R103). -/
def execOuts (r : Nibble) (s : State) : Host.Outcome State Fault Refusal :=
  .next (s.emit (s.reg r))

/-- MOVE: `x[R] <- x[S]` (rule R104). -/
def execMove (r q : Nibble) (s : State) : Host.Outcome State Fault Refusal :=
  .next (s.setReg r (s.reg q))

end Sys2Proof.Machine
end

