-- ==== Sys2Proof/WellFormed.lean ====
section
/-!
DEFINITION. Which terms of Instr are instructions of the hardware: the selector values of 30_encoding.md
rule R67. A STORE has XY ≠ 0 (XY = 0 is OUTS); a NOP row's S is none of the values that name another
instruction of its opcode.
-/

namespace Sys2Proof

/-- The checks on an instruction's fields (rule R67). -/
def Instr.wf : Instr → Bool
  | .store _ a => a != 0
  | .nop5 s | .nop7 s | .nop8 s | .nop9 s => 2 ≤ s.toNat
  | .nop6 s => 4 ≤ s.toNat
  | .load _ _ | .loadImm _ _ | .outs _ | .move _ _ | .add _ _ | .sub _ _ => true
  | .bitAnd _ _ | .bitOr _ _ | .bitXor _ _ | .bitNot _ | .shl _ | .shr _ => true
  | .jz _ _ | .jmp _ | .inp _ | .out _ | .jeq _ _ _ | .halt => true
  | .invalid0 | .invalid10 | .invalid13 | .invalid14 | .invalid15 => true

end Sys2Proof
end

