-- ==== Sys2Proof/Decode.lean ====
section
/-!
DEFINITION. The decoder, the encoder and the opcode table (30_encoding.md). The decoder is total: every
16-bit word decodes to exactly one row (rule R63), so it never refuses; a word with an undefined opcode
decodes to the INVALID row of its opcode (rule R68).
-/

namespace Sys2Proof

/-- `opcode = w[15:12]` (rule R61). -/
def opcodeOf (w : Word) : Nibble := w.extractLsb' 12 4

/-- `R = w[11:8]` (rule R61). -/
def fieldR (w : Word) : Nibble := w.extractLsb' 8 4

/-- `S = w[7:4]` (rule R61). -/
def fieldS (w : Word) : Nibble := w.extractLsb' 4 4

/-- `T = w[3:0]` (rule R61). -/
def fieldT (w : Word) : Nibble := w.extractLsb' 0 4

/-- `XY = w[7:0]`, the same bits as S and T (rules R61, R62). -/
def fieldXY (w : Word) : Addr := w.extractLsb' 0 8

/-- Opcode 3: XY selects OUTS or STORE (rule R67). -/
def decodeOp3 (w : Word) : Instr :=
  if fieldXY w = 0 then .outs (fieldR w) else .store (fieldR w) (fieldXY w)

/-- Opcode 5: S selects ADD, SUB or NOP5 (rule R67). -/
def decodeOp5 (w : Word) : Instr :=
  if fieldS w = 0 then .add (fieldR w) (fieldT w)
  else if fieldS w = 1 then .sub (fieldR w) (fieldT w)
  else .nop5 (fieldS w)

/-- Opcode 6: S selects AND, OR, XOR, NOT or NOP6 (rule R67). -/
def decodeOp6 (w : Word) : Instr :=
  if fieldS w = 0 then .bitAnd (fieldR w) (fieldT w)
  else if fieldS w = 1 then .bitOr (fieldR w) (fieldT w)
  else if fieldS w = 2 then .bitXor (fieldR w) (fieldT w)
  else if fieldS w = 3 then .bitNot (fieldR w)
  else .nop6 (fieldS w)

/-- Opcode 7: S selects SHL, SHR or NOP7 (rule R67). -/
def decodeOp7 (w : Word) : Instr :=
  if fieldS w = 0 then .shl (fieldR w)
  else if fieldS w = 1 then .shr (fieldR w)
  else .nop7 (fieldS w)

/-- Opcode 8: S selects JZ, JMP or NOP8 (rule R67). -/
def decodeOp8 (w : Word) : Instr :=
  if fieldS w = 0 then .jz (fieldR w) (fieldT w)
  else if fieldS w = 1 then .jmp (fieldT w)
  else .nop8 (fieldS w)

/-- Opcode 9: S selects IN, OUT or NOP9 (rule R67). -/
def decodeOp9 (w : Word) : Instr :=
  if fieldS w = 0 then .inp (fieldR w)
  else if fieldS w = 1 then .out (fieldR w)
  else .nop9 (fieldS w)

/-- The decoder: the opcode map of rules R66 and R67. -/
def decode (w : Word) : Instr :=
  if opcodeOf w = 0 then .invalid0
  else if opcodeOf w = 1 then .load (fieldR w) (fieldXY w)
  else if opcodeOf w = 2 then .loadImm (fieldR w) (fieldXY w)
  else if opcodeOf w = 3 then decodeOp3 w
  else if opcodeOf w = 4 then .move (fieldR w) (fieldS w)
  else if opcodeOf w = 5 then decodeOp5 w
  else if opcodeOf w = 6 then decodeOp6 w
  else if opcodeOf w = 7 then decodeOp7 w
  else if opcodeOf w = 8 then decodeOp8 w
  else if opcodeOf w = 9 then decodeOp9 w
  else if opcodeOf w = 10 then .invalid10
  else if opcodeOf w = 11 then .jeq (fieldR w) (fieldS w) (fieldT w)
  else if opcodeOf w = 12 then .halt
  else if opcodeOf w = 13 then .invalid13
  else if opcodeOf w = 14 then .invalid14
  else .invalid15

/-- A word from its four fields (rule R61). -/
def wordRST (op r s t : Nibble) : Word := op ++ r ++ s ++ t

/-- A word from opcode, R and XY (rule R61). -/
def wordRXY (op r : Nibble) (xy : Addr) : Word := op ++ r ++ xy

/-- The encoder: the words of rule R72, an ignored field written as 0. The NOP and INVALID rows have no
assembly form; their ignored fields are written as 0 too. -/
def encode : Instr → Word
  | .load r a => wordRXY 1 r a
  | .loadImm r imm => wordRXY 2 r imm
  | .outs r => wordRXY 3 r 0
  | .store r a => wordRXY 3 r a
  | .move r s => wordRST 4 r s 0
  | .add r t => wordRST 5 r 0 t
  | .sub r t => wordRST 5 r 1 t
  | .nop5 s => wordRST 5 0 s 0
  | .bitAnd r t => wordRST 6 r 0 t
  | .bitOr r t => wordRST 6 r 1 t
  | .bitXor r t => wordRST 6 r 2 t
  | .bitNot r => wordRST 6 r 3 0
  | .nop6 s => wordRST 6 0 s 0
  | .shl r => wordRST 7 r 0 0
  | .shr r => wordRST 7 r 1 0
  | .nop7 s => wordRST 7 0 s 0
  | .jz r t => wordRST 8 r 0 t
  | .jmp t => wordRST 8 0 1 t
  | .nop8 s => wordRST 8 0 s 0
  | .inp r => wordRST 9 r 0 0
  | .out r => wordRST 9 r 1 0
  | .nop9 s => wordRST 9 0 s 0
  | .jeq r s t => wordRST 11 r s t
  | .halt => 0xC000
  | .invalid0 => 0x0000
  | .invalid10 => 0xA000
  | .invalid13 => 0xD000
  | .invalid14 => 0xE000
  | .invalid15 => 0xF000

/-- The word an opcode-table row stands for, `nbits` bits of it given, the bits above them 0. No
instruction is longer than one cell (rule R60). -/
def decodeTableWord (nbits w : Nat) : Option Instr :=
  if nbits ≤ 16 then some (decode (BitVec.ofNat 16 (w % 2 ^ nbits))) else none

/-- A row of spec/opcode_table.json: a word `w` matches it when `(w AND mask) = pattern` (rule R73). -/
structure TableRow where
  mnemonic : String
  mask : Word
  pattern : Word
  priority : Nat
  deriving DecidableEq, Repr

/-- Whether a word matches a row (rule R73). -/
def TableRow.accepts (row : TableRow) (w : Word) : Bool := w &&& row.mask == row.pattern

/-- The rows of opcodes 1 to 4, in the table's own numbers. -/
def tableDataMovement : List TableRow :=
  [⟨"LOAD", 0xF000, 0x1000, 1⟩, ⟨"LOAD_IMM", 0xF000, 0x2000, 1⟩, ⟨"OUTS", 0xF0FF, 0x3000, 1⟩,
   ⟨"STORE", 0xF000, 0x3000, 2⟩, ⟨"MOVE", 0xF000, 0x4000, 1⟩]

/-- The rows of opcodes 5 to 7, in the table's own numbers. -/
def tableAlu : List TableRow :=
  [⟨"ADD", 0xF0F0, 0x5000, 1⟩, ⟨"SUB", 0xF0F0, 0x5010, 1⟩, ⟨"NOP5", 0xF000, 0x5000, 2⟩,
   ⟨"AND", 0xF0F0, 0x6000, 1⟩, ⟨"OR", 0xF0F0, 0x6010, 1⟩, ⟨"XOR", 0xF0F0, 0x6020, 1⟩,
   ⟨"NOT", 0xF0F0, 0x6030, 1⟩, ⟨"NOP6", 0xF000, 0x6000, 2⟩, ⟨"SHL", 0xF0F0, 0x7000, 1⟩,
   ⟨"SHR", 0xF0F0, 0x7010, 1⟩, ⟨"NOP7", 0xF000, 0x7000, 2⟩]

/-- The rows of opcodes 8 to 15 and 0, in the table's own numbers. -/
def tableControl : List TableRow :=
  [⟨"JZ", 0xF0F0, 0x8000, 1⟩, ⟨"JMP", 0xF0F0, 0x8010, 1⟩, ⟨"NOP8", 0xF000, 0x8000, 2⟩,
   ⟨"IN", 0xF0F0, 0x9000, 1⟩, ⟨"OUT", 0xF0F0, 0x9010, 1⟩, ⟨"NOP9", 0xF000, 0x9000, 2⟩,
   ⟨"JEQ", 0xF000, 0xB000, 1⟩, ⟨"HALT", 0xF000, 0xC000, 1⟩, ⟨"INVALID", 0xF000, 0x0000, 1⟩,
   ⟨"INVALID", 0xF000, 0xA000, 1⟩, ⟨"INVALID", 0xF000, 0xD000, 1⟩, ⟨"INVALID", 0xF000, 0xE000, 1⟩,
   ⟨"INVALID", 0xF000, 0xF000, 1⟩]

/-- The 29 rows of spec/opcode_table.json. -/
def opcodeTable : List TableRow := tableDataMovement ++ tableAlu ++ tableControl

/-- The mnemonic of an instruction's row. -/
def Instr.mnemonic : Instr → String
  | .load _ _ => "LOAD" | .loadImm _ _ => "LOAD_IMM" | .outs _ => "OUTS" | .store _ _ => "STORE"
  | .move _ _ => "MOVE" | .add _ _ => "ADD" | .sub _ _ => "SUB" | .nop5 _ => "NOP5"
  | .bitAnd _ _ => "AND" | .bitOr _ _ => "OR" | .bitXor _ _ => "XOR" | .bitNot _ => "NOT"
  | .nop6 _ => "NOP6" | .shl _ => "SHL" | .shr _ => "SHR" | .nop7 _ => "NOP7" | .jz _ _ => "JZ"
  | .jmp _ => "JMP" | .nop8 _ => "NOP8" | .inp _ => "IN" | .out _ => "OUT" | .nop9 _ => "NOP9"
  | .jeq _ _ _ => "JEQ" | .halt => "HALT" | .invalid0 => "INVALID" | .invalid10 => "INVALID"
  | .invalid13 => "INVALID" | .invalid14 => "INVALID" | .invalid15 => "INVALID"

/-- The bits of a word that its instruction uses: the bits of its row's `encoding` that are not `-`
(rules R64, R73). The other bits are ignored. -/
def Instr.usedBits : Instr → Word
  | .load _ _ | .loadImm _ _ | .outs _ | .store _ _ | .jeq _ _ _ => 0xFFFF
  | .add _ _ | .sub _ _ | .bitAnd _ _ | .bitOr _ _ | .bitXor _ _ | .jz _ _ => 0xFFFF
  | .move _ _ | .bitNot _ | .shl _ | .shr _ | .inp _ | .out _ => 0xFFF0
  | .jmp _ => 0xF0FF
  | .nop5 _ | .nop6 _ | .nop7 _ | .nop8 _ | .nop9 _ => 0xF0F0
  | .halt | .invalid0 | .invalid10 | .invalid13 | .invalid14 | .invalid15 => 0xF000

end Sys2Proof
end

