-- ==== Sys2Proof/Machine/InputOutput.lean ====
section
/-!
DEFINITION. The meanings of opcode 9 (44_io.md): the execute step only. IN is the one instruction that can
wait (40_execution_cycle.md rule R91).
-/

namespace Sys2Proof.Machine

/-- Whether the cycle that would fetch `w` is held: `w[15:12] = 9 and w[7:4] = 0` and no input value is
available (rules R90, R91). -/
def State.waitsAt (s : State) (w : Word) : Bool :=
  opcodeOf w == 9 && fieldS w == 0 && s.input.isEmpty

/-- IN: `x[R] <- Input()` (rule R140). With no value available it changes nothing; the cycle does not let
that case arise, since it holds before the fetch (rule R91; notes/assumptions/5.md). -/
def execIn (r : Nibble) (s : State) : Host.Outcome State Fault Refusal :=
  match s.nextInput with
  | some v => .next (s.dropInput.setReg r v)
  | none => .next s

/-- OUT: `Output(x[R])` (rule R141). -/
def execOut (r : Nibble) (s : State) : Host.Outcome State Fault Refusal :=
  .next (s.emit (s.reg r))

/-- NOP9: the reserved values of S in opcode 9 (rule R142, D4). -/
def execNop9 (s : State) : Host.Outcome State Fault Refusal :=
  reservedSubfield 9 s

end Sys2Proof.Machine
end

