-- ==== Sys2Proof/Machine/Stops.lean ====
section
/-!
DEFINITION. The meanings of HALT and of the five INVALID rows (45_halt_invalid.md): each is a designed stop,
a next state in which RUN = 0 (60_exceptions.md rules R160, R166).
-/

namespace Sys2Proof.Machine

/-- HALT: `raise Halt` (rule R150). -/
def execHalt (s : State) : Host.Outcome State Fault Refusal := .next (s.stop .halt)

/-- INVALID, opcode 0: the word of a cell nothing was loaded into (rule R151, C3). -/
def execInvalid0 (s : State) : Host.Outcome State Fault Refusal := .next (s.stopInvalid 0)

/-- INVALID, opcode 10 (rule R151). -/
def execInvalid10 (s : State) : Host.Outcome State Fault Refusal := .next (s.stopInvalid 10)

/-- INVALID, opcode 13 (rule R151). -/
def execInvalid13 (s : State) : Host.Outcome State Fault Refusal := .next (s.stopInvalid 13)

/-- INVALID, opcode 14 (rule R151). -/
def execInvalid14 (s : State) : Host.Outcome State Fault Refusal := .next (s.stopInvalid 14)

/-- INVALID, opcode 15 (rule R151). -/
def execInvalid15 (s : State) : Host.Outcome State Fault Refusal := .next (s.stopInvalid 15)

end Sys2Proof.Machine
end

