-- ==== Sys2Proof/Machine/Dispatch.lean ====
section
/-!
DEFINITION. The execute step of each instruction (40_execution_cycle.md rule R86). `s` is the state after the
fetch: `ir` holds the word and `pc` the instruction's address plus one (rule R87; notes/assumptions/9.md).
-/

namespace Sys2Proof.Machine

def exec (i : Instr) (s : State) : Host.Outcome State Fault Refusal :=
  match i with
  | .load r a => Sys2Proof.Machine.execLoad r a s
  | .loadImm r imm => Sys2Proof.Machine.execLoadImm r imm s
  | .outs r => Sys2Proof.Machine.execOuts r s
  | .store r a => Sys2Proof.Machine.execStore r a s
  | .move r q => Sys2Proof.Machine.execMove r q s
  | .add r t => Sys2Proof.Machine.execAdd r t s
  | .sub r t => Sys2Proof.Machine.execSub r t s
  | .nop5 _ => Sys2Proof.Machine.execNop5 s
  | .bitAnd r t => Sys2Proof.Machine.execAnd r t s
  | .bitOr r t => Sys2Proof.Machine.execOr r t s
  | .bitXor r t => Sys2Proof.Machine.execXor r t s
  | .bitNot r => Sys2Proof.Machine.execNot r s
  | .nop6 _ => Sys2Proof.Machine.execNop6 s
  | .shl r => Sys2Proof.Machine.execShl r s
  | .shr r => Sys2Proof.Machine.execShr r s
  | .nop7 _ => Sys2Proof.Machine.execNop7 s
  | .jz r t => Sys2Proof.Machine.execJz r t s
  | .jmp t => Sys2Proof.Machine.execJmp t s
  | .nop8 _ => Sys2Proof.Machine.execNop8 s
  | .inp r => Sys2Proof.Machine.execIn r s
  | .out r => Sys2Proof.Machine.execOut r s
  | .nop9 _ => Sys2Proof.Machine.execNop9 s
  | .jeq r q t => Sys2Proof.Machine.execJeq r q t s
  | .halt => Sys2Proof.Machine.execHalt s
  | .invalid0 => Sys2Proof.Machine.execInvalid0 s
  | .invalid10 => Sys2Proof.Machine.execInvalid10 s
  | .invalid13 => Sys2Proof.Machine.execInvalid13 s
  | .invalid14 => Sys2Proof.Machine.execInvalid14 s
  | .invalid15 => Sys2Proof.Machine.execInvalid15 s

end Sys2Proof.Machine
end

