-- ==== Sys2Proof/Machine/Cycle.lean ====
section
/-!
DEFINITION. The fetch-decode-execute cycle (40_execution_cycle.md rule R90): one whole cycle, or the guard's
stop, is one step (rule R88).
-/

namespace Sys2Proof.Machine

/-- The step of rule R90. RUN = 0: the engine has no step. The guard fails: `raise PcExhausted` (rule R83).
An IN with no input available: the machine holds, unchanged (rule R91). Otherwise fetch, decode, execute. -/
def cycle (s : State) : Host.Outcome State Fault Refusal :=
  match s.run with
  | .halted => .fault .notRunning
  | .running =>
    if s.pcInMemory then
      if s.waitsAt s.fetchWord then .next s
      else exec (decode s.fetchWord) s.fetch
    else .next (s.stop .pcExhausted)

/-- The instruction word `nbits` of whose bits are `w`, the rest 0. -/
def tableWord (nbits w : Nat) : Word := BitVec.ofNat 16 (w % 2 ^ nbits)

/-- The state in which the next step fetches and runs `w`: what the host does with set_pc (only if the PC
is not a memory index), set_mem and execute(), with an input value supplied if `w` is an IN that would wait
for one (rules R91, R184; notes/assumptions/7.md and 8.md). -/
def State.plantWord (s : State) (w : Word) : State :=
  let s := if s.pcInMemory then s else s.setPc 0
  let s := (s.setCell s.fetchAddr w).startRun
  if s.waitsAt w then s.deliver 0 else s

end Sys2Proof.Machine
end

