-- ==== Sys2Proof/Machine/Step.lean ====
section
/-!
DEFINITION. The machine's step, and a state in which the next step runs a given word.
-/

namespace Sys2Proof.Machine

/-- One step of the engine (rule R90). -/
def step (s : State) : Host.Outcome State Fault Refusal := cycle s

/-- `s` with a table row's word stored where the next fetch reads it, in a run (notes/assumptions/7.md). -/
def State.withFetchWord (s : State) (nbits w : Nat) : State := s.plantWord (tableWord nbits w)

end Sys2Proof.Machine
end

