-- ==== Sys2Proof/Machine/HostPort.lean ====
section
/-!
DEFINITION. The host access port (10_state.md rules R34, R35, R37; 70_reset_and_hazards.md rule R191): what
the surrounding software and the environment can do to the machine between steps. No instruction uses it.
-/

namespace Sys2Proof.Machine

/-- The operations by which the host or the environment changes the state (rule R34; the last is the input
port of rule R37). An index is a number as the host gives it. -/
inductive HostOp where
  | setReg (i : Nat) (v : Word)
  | setMem (a : Nat) (v : Word)
  | setPc (p : Nat)
  | setIr (v : Word)
  | reset
  | load (words : List Word) (start : Nat)
  | execute
  | supplyInput (v : Word)
  deriving DecidableEq, Repr

/-- A host operation that needs RUN = 0 and an argument in range; otherwise it is refused, never clamped or
wrapped (rules R34, R177, D9, D18). With both grounds the name is hostWhileRunning (notes/assumptions/17.md). -/
def hostAllowed (inRange : Bool) (s : State) (s' : State) : Host.Outcome State Fault Refusal :=
  match s.run with
  | .running => .refused .hostWhileRunning
  | .halted => if inRange then .next s' else .refused .hostIndexOutOfRange

/-- `load(words, start)`: consecutive cells in increasing order, dropping the words that would pass cell 255
(rule R55). -/
def State.loadWords (s : State) : List Word → Nat → State
  | [], _ => s
  | w :: ws, a =>
    if a < Config.memCells then State.loadWords (s.setCell (BitVec.ofNat 8 a) w) ws (a + 1) else s

/-- What each operation does (rules R34, R55, R82, R180). A value may arrive at the input port at any time
(rules R80, R191). -/
def hostOp (op : HostOp) (s : State) : Host.Outcome State Fault Refusal :=
  match op with
  | .setReg i v => hostAllowed (decide (i < Config.nreg)) s (s.setReg (BitVec.ofNat 4 i) v)
  | .setMem a v => hostAllowed (decide (a < Config.memCells)) s (s.setCell (BitVec.ofNat 8 a) v)
  | .setPc p => hostAllowed (decide (p < Config.pcValues)) s (s.setPc (BitVec.ofNat 9 p))
  | .setIr v => hostAllowed true s (s.setIr v)
  | .reset => hostAllowed true s s.cleared
  | .load ws a => hostAllowed (decide (a < Config.memCells)) s (s.loadWords ws a)
  | .execute => hostAllowed true s s.startRun
  | .supplyInput v => .next (s.deliver v)

/-- A read through the port: needs RUN = 0 and an index in range, changes nothing (rule R34's table; that a read
in a run is refused is DEDUCED, notes/assumptions/25.md). -/
def hostRead (inRange : Bool) (s : State) (v : Word) : Except Refusal Word :=
  match s.run with
  | .running => .error .hostWhileRunning
  | .halted => if inRange then .ok v else .error .hostIndexOutOfRange

/-- `get_reg(i)` (rule R34). -/
def hostGetReg (i : Nat) (s : State) : Except Refusal Word :=
  hostRead (decide (i < Config.nreg)) s (s.reg (BitVec.ofNat 4 i))

/-- `get_mem(a)` (rule R34). -/
def hostGetMem (a : Nat) (s : State) : Except Refusal Word :=
  hostRead (decide (a < Config.memCells)) s (s.cell (BitVec.ofNat 8 a))

/-- `get_pc()` (rule R34), as a 16-bit value. -/
def hostGetPc (s : State) : Except Refusal Word := hostRead true s (s.pc.setWidth 16)

/-- `get_ir()` (rule R34). -/
def hostGetIr (s : State) : Except Refusal Word := hostRead true s s.ir

/-- What status() shows: the full register file, the memory contents, PC and IR (rule R35). -/
structure StatusView where
  regs : List Word
  cells : List Word
  pc : Pc
  ir : Word
  deriving DecidableEq, Repr

/-- `status()`: allowed in every state of the model, since each stands between two cycles; it changes
nothing (rules R34, R35). -/
def State.status (s : State) : StatusView where
  regs := s.x.toList
  cells := (List.range Config.memCells).map fun a => s.cell (BitVec.ofNat 8 a)
  pc := s.pc
  ir := s.ir

/-- The codes of the stop causes (rule R161, D6); nothing depends on them. -/
def StopReason.code : StopReason → Nat
  | .none => 0
  | .halt => 1
  | .invalid => 2
  | .pcExhausted => 3

/-- The run status port: RUN, STOP_REASON's code, BAD_OPCODE (rule R37). -/
def State.runStatus (s : State) : Bool × Nat × Nibble :=
  (s.run == .running, s.stopReason.code, s.badOpcode)

end Sys2Proof.Machine
end

