-- ==== Sys2Proof/Safety.lean ====
section
/-!
DEFINITION. The words claims are stated in: the invariant, final states and runs, which registers an
instruction reads and writes, and what it means for two states to agree on a part.
-/

namespace Sys2Proof.Machine

/-! ### Agreement of two states, part by part -/

/-- Every register but `r` is unchanged. -/
def SameRegsBut (r : Nibble) (s t : State) : Prop := ∀ j, j ≠ r → t.reg j = s.reg j

/-- Every register is unchanged. -/
def SameRegs (s t : State) : Prop := ∀ j, t.reg j = s.reg j

/-- Every memory cell but `a` reads as before. -/
def SameCellsBut (a : Addr) (s t : State) : Prop := ∀ b, b ≠ a → t.cell b = s.cell b

/-- Every memory cell reads as before. -/
def SameCells (s t : State) : Prop := ∀ b, t.cell b = s.cell b

/-- PC and IR are unchanged. -/
def SamePcIr (s t : State) : Prop := t.pc = s.pc ∧ t.ir = s.ir

/-- RUN, STOP_REASON and BAD_OPCODE are unchanged. -/
def SameRunControl (s t : State) : Prop :=
  t.run = s.run ∧ t.stopReason = s.stopReason ∧ t.badOpcode = s.badOpcode

/-- The input source and the output event trace are unchanged. -/
def SameStreams (s t : State) : Prop := t.input = s.input ∧ t.output = s.output

/-- `t` is `s` with `x[r] = v`: every other piece of state is unchanged. -/
def OnlyRegBecomes (r : Nibble) (v : Word) (s t : State) : Prop :=
  t.reg r = v ∧ SameRegsBut r s t ∧ SameCells s t ∧ SamePcIr s t ∧ SameRunControl s t ∧ SameStreams s t

/-- `t` is `s` with `mem[a] = v`: every other piece of state is unchanged. -/
def OnlyCellBecomes (a : Addr) (v : Word) (s t : State) : Prop :=
  t.cell a = v ∧ SameCellsBut a s t ∧ SameRegs s t ∧ SamePcIr s t ∧ SameRunControl s t ∧ SameStreams s t

/-- `t` is `s` with `pc = p`: every other piece of state is unchanged. -/
def OnlyPcBecomes (p : Pc) (s t : State) : Prop :=
  t.pc = p ∧ t.ir = s.ir ∧ SameRegs s t ∧ SameCells s t ∧ SameRunControl s t ∧ SameStreams s t

/-- `t` is `s` with one output event `v` more: every other piece of state is unchanged. -/
def OnlyEmits (v : Word) (s t : State) : Prop :=
  t.output = s.output ++ [v] ∧ t.input = s.input ∧ SameRegs s t ∧ SameCells s t ∧ SamePcIr s t ∧
    SameRunControl s t

/-- Every piece of state is unchanged. -/
def NothingChanges (s t : State) : Prop :=
  SameRegs s t ∧ SameCells s t ∧ SamePcIr s t ∧ SameRunControl s t ∧ SameStreams s t

/-- `t` is `s` stopped for a reason, with a value of BAD_OPCODE: every other piece of state is unchanged
(rule R166). -/
def OnlyStops (reason : StopReason) (bad : Nibble) (s t : State) : Prop :=
  t.run = .halted ∧ t.stopReason = reason ∧ t.badOpcode = bad ∧
    SameRegs s t ∧ SameCells s t ∧ SamePcIr s t ∧ SameStreams s t

/-- `s` with another register file, everything else the same. -/
def State.withRegs (s : State) (y : Vector Word 16) : State := { s with x := y }

/-! ### What an instruction reads and writes -/

/-- The register an instruction writes (the last column of rule R22's table). -/
def regWritten : Instr → Option Nibble
  | .load r _ | .loadImm r _ | .move r _ | .add r _ | .sub r _ | .bitAnd r _ | .bitOr r _ => some r
  | .bitXor r _ | .bitNot r | .shl r | .shr r | .inp r => some r
  | .outs _ | .store _ _ | .nop5 _ | .nop6 _ | .nop7 _ | .jz _ _ | .jmp _ | .nop8 _ | .out _ => none
  | .nop9 _ | .jeq _ _ _ | .halt | .invalid0 | .invalid10 | .invalid13 | .invalid14 => none
  | .invalid15 => none

/-- The registers an instruction reads (the middle column of rule R22's table). -/
def regsRead : Instr → List Nibble
  | .outs r | .store r _ | .bitNot r | .shl r | .shr r | .jz r _ | .out r => [r]
  | .move _ q => [q]
  | .add r t | .sub r t | .bitAnd r t | .bitOr r t | .bitXor r t => [r, t]
  | .jeq r q _ => [r, q]
  | .load _ _ | .loadImm _ _ | .nop5 _ | .nop6 _ | .nop7 _ | .jmp _ | .nop8 _ | .inp _ => []
  | .nop9 _ | .halt | .invalid0 | .invalid10 | .invalid13 | .invalid14 | .invalid15 => []

/-- The cell an instruction stores to (rule R41: STORE alone writes memory). -/
def cellStored : Instr → Option Addr
  | .store _ a => some a
  | .load _ _ | .loadImm _ _ | .outs _ | .move _ _ | .add _ _ | .sub _ _ | .nop5 _ | .bitAnd _ _ => none
  | .bitOr _ _ | .bitXor _ _ | .bitNot _ | .nop6 _ | .shl _ | .shr _ | .nop7 _ | .jz _ _ => none
  | .jmp _ | .nop8 _ | .inp _ | .out _ | .nop9 _ | .jeq _ _ _ | .halt | .invalid0 => none
  | .invalid10 | .invalid13 | .invalid14 | .invalid15 => none

/-! ### Invariant, final states, runs -/

/-- The run-control state is consistent: a running machine has recorded no stop, BAD_OPCODE is 0 but after
an INVALID stop, and after one it is an invalid opcode value (rules R30, R82, R161, R166). -/
def State.runControlOk (s : State) : Prop :=
  (s.run = .running → s.stopReason = .none) ∧
  (s.stopReason ≠ .invalid → s.badOpcode = 0) ∧
  (s.stopReason = .invalid → s.badOpcode ∈ [0, 10, 13, 14, 15])

/-- The invariant: memory is in its canonical form and the run-control state is consistent. -/
def State.Inv (s : State) : Prop := s.mem.wf ∧ s.runControlOk

/-- A final state: RUN = 0 and a stop has been recorded (rule R89). -/
def State.isFinal (s : State) : Prop := s.run = .halted ∧ s.stopReason ≠ .none

/-- At most `k` steps of the engine, under fuel; where it has no step the state stays (rule R89). -/
def State.runFor : Nat → State → State
  | 0, s => s
  | k + 1, s =>
    match step s with
    | .next t => State.runFor k t
    | .fault _ => s
    | .refused _ => s

end Sys2Proof.Machine
end

