-- ==== Sys2Proof/Certificates/Slice0/Obligations.lean ====
section
/-!
DEFINITION. The statements for the provers. In a result statement the first clause says which words are the
instruction and the second what its execute step does in EVERY state, `s` being the state after the fetch
(40_execution_cycle.md rule R87). Where a statement rests on a decision of 92_eei_decisions.md its docstring
names it.
-/

open Sys2Proof Sys2Proof.Machine

/-! ### Encoding -/

/-- Rule R61: the four fields are the word's nibbles, and XY = 16*S + T is its low byte. -/
def Obligations.FieldsAreTheNibblesOfTheWord : Prop :=
  ∀ w : Word,
    (opcodeOf w).toNat = w.toNat / 4096 ∧ (fieldR w).toNat = w.toNat / 256 % 16 ∧
    (fieldS w).toNat = w.toNat / 16 % 16 ∧ (fieldT w).toNat = w.toNat % 16 ∧
    (fieldXY w).toNat = w.toNat % 256 ∧ (fieldXY w).toNat = 16 * (fieldS w).toNat + (fieldT w).toNat

/-- The words of 95_test_vectors.md section 2.1. -/
def Obligations.VectorWordsDecodeAsListed : Prop :=
  decode 0x2105 = .loadImm 1 5 ∧ decode 0x3100 = .outs 1 ∧ decode 0x3101 = .store 1 1 ∧
  decode 0x1440 = .load 4 0x40 ∧ decode 0x412F = .move 1 2 ∧ decode 0x5102 = .add 1 2 ∧
  decode 0x5113 = .sub 1 3 ∧ decode 0x5123 = .nop5 2 ∧ decode 0x6130 = .bitNot 1 ∧
  decode 0x6140 = .nop6 4 ∧ decode 0x7110 = .shr 1 ∧ decode 0x8104 = .jz 1 4 ∧
  decode 0x8010 = .jmp 0 ∧ decode 0x8040 = .nop8 4 ∧ decode 0x9100 = .inp 1 ∧
  decode 0x9110 = .out 1 ∧ decode 0xB235 = .jeq 2 3 5 ∧ decode 0xC000 = .halt ∧
  decode 0xCFFF = .halt ∧ decode 0x0000 = .invalid0 ∧ decode 0xA123 = .invalid10 ∧
  decode 0xD000 = .invalid13 ∧ decode 0xFFFF = .invalid15

/-- Decoding an encoded well-formed instruction gives it back, for every instruction and every operand. -/
def Obligations.DecodeOfEncodeIsTheInstruction : Prop :=
  ∀ i : Instr, i.wf = true → decode (encode i) = i

/-- Every word decodes to a well-formed instruction, whose encoding agrees with the word on every bit the
instruction uses and has 0 in every ignored bit. That ignored fields hold any value is decision D5. That the
encoder writes 0 in them is rule R72 for the rows with an assembly form; for the NOP and INVALID rows, which
have none, it is the model's own choice (log entry 14). -/
def Obligations.EncodeOfDecodeKeepsTheUsedBits : Prop :=
  ∀ w : Word, (decode w).wf = true ∧ encode (decode w) = w &&& (decode w).usedBits

/-- Words that differ only in bits their instruction ignores are the same instruction (rules R64, R70;
decision D5). -/
def Obligations.IgnoredBitsDoNotMatter : Prop :=
  (∀ w w' : Word, w &&& (decode w).usedBits = w' &&& (decode w).usedBits → decode w' = decode w) ∧
  decode 0xC123 = decode 0xC000 ∧ decode 0x412F = decode 0x4120 ∧ decode 0x8F10 = decode 0x8010 ∧
  decode 0x710F = decode 0x7100

/-- Every word decodes to the row of spec/opcode_table.json it matches with the smallest priority, and no
other matching row has that priority (rules R63, R73; convention D15). -/
def Obligations.DecodeFollowsTheOpcodeTable : Prop :=
  ∀ w : Word, ∃ row ∈ opcodeTable, row.accepts w = true ∧ row.mnemonic = (decode w).mnemonic ∧
    ∀ row' ∈ opcodeTable, row'.accepts w = true → row' = row ∨ row.priority < row'.priority

/-! ### The cycle -/

/-- A step runs the decoded instruction: in a running state with the PC a memory index, unless the word is an
IN with no input available, the step is exec of the decoded word in the state with that word in IR and the
PC one higher, nine bits wide, so that 255 becomes 256. -/
def Obligations.StepRunsTheDecodedInstruction : Prop :=
  ∀ s : State, s.run = .running → s.pc.toNat < 256 →
    ¬(opcodeOf (s.cell (s.pc.setWidth 8)) = 9 ∧ fieldS (s.cell (s.pc.setWidth 8)) = 0 ∧ s.input = []) →
    (s.pc + 1).toNat = s.pc.toNat + 1 ∧
    step s = exec (decode (s.cell (s.pc.setWidth 8)))
      ((s.setIr (s.cell (s.pc.setWidth 8))).setPc (s.pc + 1))

/-- The guard: with PC 256 or more nothing is fetched and the run stops with PC_EXHAUSTED (decisions D1,
D6, D14). -/
def Obligations.GuardStopsWithPcExhausted : Prop :=
  ∀ s : State, s.run = .running → 256 ≤ s.pc.toNat →
    ∃ t, step s = .next t ∧ OnlyStops .pcExhausted s.badOpcode s t

/-- An IN with no input available holds: the state is that before the fetch (decision D7). -/
def Obligations.InWithoutInputHoldsTheState : Prop :=
  ∀ s : State, s.run = .running → s.pc.toNat < 256 → opcodeOf (s.cell (s.pc.setWidth 8)) = 9 →
    fieldS (s.cell (s.pc.setWidth 8)) = 0 → s.input = [] → step s = .next s

/-- The model's step answers a next state exactly while RUN = 1 (decision D6); otherwise it is the fault
notRunning, the model's choice (log entry 6). The spec calls the step not enabled while an IN waits (rules R90,
R91, decision D7): that the model then answers the unchanged state, and so a next state, is its choice too (log
entry 4). -/
def Obligations.EngineStepsExactlyWhileRunning : Prop :=
  ∀ s : State, ((∃ t, step s = .next t) ↔ s.run = .running) ∧
    (step s = .fault .notRunning ↔ s.run = .halted)

/-- Only the fetch writes IR: no execute step changes it, and after a step that is neither the guard's stop
nor the wait at an IN it holds the word that stood at the old PC. -/
def Obligations.OnlyTheFetchWritesIr : Prop :=
  (∀ (i : Instr) (s t : State), exec i s = .next t → t.ir = s.ir) ∧
  (∀ s t : State, step s = .next t → t.ir ≠ s.ir → s.pc.toNat < 256 ∧ t.ir = s.cell (s.pc.setWidth 8)) ∧
  (∀ s t : State, step s = .next t → s.pc.toNat < 256 →
    ¬(opcodeOf (s.cell (s.pc.setWidth 8)) = 9 ∧ fieldS (s.cell (s.pc.setWidth 8)) = 0 ∧ s.input = []) →
    t.ir = s.cell (s.pc.setWidth 8))

/-! ### Data movement -/

/-- Rule R100, LOAD. -/
def Obligations.LoadCopiesTheCell : Prop :=
  (∀ w : Word, opcodeOf w = 1 → decode w = .load (fieldR w) (fieldXY w)) ∧
  ∀ (r : Nibble) (a : Addr) (s : State),
    ∃ t, exec (.load r a) s = .next t ∧ OnlyRegBecomes r (s.cell a) s t

/-- Rule R101, LOAD_IMM: the unsigned byte, no sign extension. -/
def Obligations.LoadImmZeroExtends : Prop :=
  (∀ w : Word, opcodeOf w = 2 → decode w = .loadImm (fieldR w) (fieldXY w)) ∧
  ∀ (r : Nibble) (imm : Addr) (s : State),
    ∃ t, exec (.loadImm r imm) s = .next t ∧ OnlyRegBecomes r (BitVec.ofNat 16 imm.toNat) s t ∧
      (t.reg r).toNat = imm.toNat ∧ (t.reg r).toInt = imm.toNat

/-- Rule R102, STORE: the whole pattern into cell XY; every other cell reads as before. -/
def Obligations.StoreWritesItsCellOnly : Prop :=
  (∀ w : Word, opcodeOf w = 3 → fieldXY w ≠ 0 → decode w = .store (fieldR w) (fieldXY w)) ∧
  ∀ (r : Nibble) (a : Addr) (s : State),
    ∃ t, exec (.store r a) s = .next t ∧ OnlyCellBecomes a (s.reg r) s t

/-- OUTS: one output event, memory untouched, cell 0 included (the trace is decision D8). -/
def Obligations.OutsEmitsTheRegister : Prop :=
  (∀ w : Word, opcodeOf w = 3 → fieldXY w = 0 → decode w = .outs (fieldR w)) ∧
  ∀ (r : Nibble) (s : State), ∃ t, exec (.outs r) s = .next t ∧ OnlyEmits (s.reg r) s t

/-- Rule R104, MOVE: into R from S. -/
def Obligations.MoveCopiesTheRegister : Prop :=
  (∀ w : Word, opcodeOf w = 4 → decode w = .move (fieldR w) (fieldS w)) ∧
  ∀ (r q : Nibble) (s : State),
    ∃ t, exec (.move r q) s = .next t ∧ OnlyRegBecomes r (s.reg q) s t

/-! ### ALU -/

/-- Rule R110: on the exact sums and differences of two signed 16-bit values, one correction by 65536 brings
the result into [-32768, 32767]. -/
def Obligations.WrapSixteenIsOneCorrection : Prop :=
  (∀ n : Int, -65536 ≤ n → n ≤ 65535 →
    (32767 < n → wrap16 n = n - 65536) ∧ (n < -32768 → wrap16 n = n + 65536) ∧
    (-32768 ≤ n → n ≤ 32767 → wrap16 n = n) ∧ -32768 ≤ wrap16 n ∧ wrap16 n ≤ 32767) ∧
  (∀ a b : Word, -65536 ≤ a.toInt + b.toInt ∧ a.toInt + b.toInt ≤ 65534 ∧
    -65535 ≤ a.toInt - b.toInt ∧ a.toInt - b.toInt ≤ 65535) ∧
  wrap16 (32767 + 1) = -32768 ∧ wrap16 (-32768 - 1) = 32767

/-- wrap16 is the signed reading of the 16-bit pattern, so ADD and SUB are modular addition and subtraction of
patterns (the spec derives this). -/
def Obligations.WraparoundIsModularArithmetic : Prop :=
  (∀ n : Int, -65536 ≤ n → n ≤ 65535 → wrap16 n = (BitVec.ofInt 16 n).toInt) ∧
  ∀ (r t : Nibble) (s : State),
    (∃ u, exec (.add r t) s = .next u ∧ u.reg r = s.reg r + s.reg t) ∧
    (∃ u, exec (.sub r t) s = .next u ∧ u.reg r = s.reg r - s.reg t)

/-- Rule R112, ADD. -/
def Obligations.AddWrapsTheExactSum : Prop :=
  (∀ w : Word, opcodeOf w = 5 → fieldS w = 0 → decode w = .add (fieldR w) (fieldT w)) ∧
  ∀ (r t : Nibble) (s : State),
    ∃ u, exec (.add r t) s = .next u ∧ OnlyRegBecomes r (u.reg r) s u ∧
      (u.reg r).toInt = wrap16 ((s.reg r).toInt + (s.reg t).toInt)

/-- Rule R113, SUB: R minus T. -/
def Obligations.SubWrapsTheExactDifference : Prop :=
  (∀ w : Word, opcodeOf w = 5 → fieldS w = 1 → decode w = .sub (fieldR w) (fieldT w)) ∧
  ∀ (r t : Nibble) (s : State),
    ∃ u, exec (.sub r t) s = .next u ∧ OnlyRegBecomes r (u.reg r) s u ∧
      (u.reg r).toInt = wrap16 ((s.reg r).toInt - (s.reg t).toInt)

/-- Rules R115, R116, R117: AND, OR and XOR act bit by bit on the 16-bit patterns. -/
def Obligations.AndOrXorActBitByBit : Prop :=
  (∀ w : Word, opcodeOf w = 6 →
    (fieldS w = 0 → decode w = .bitAnd (fieldR w) (fieldT w)) ∧
    (fieldS w = 1 → decode w = .bitOr (fieldR w) (fieldT w)) ∧
    (fieldS w = 2 → decode w = .bitXor (fieldR w) (fieldT w))) ∧
  ∀ (r t : Nibble) (s : State),
    (∃ u, exec (.bitAnd r t) s = .next u ∧ OnlyRegBecomes r (u.reg r) s u ∧
      ∀ k, k < 16 → (u.reg r).getLsbD k = ((s.reg r).getLsbD k && (s.reg t).getLsbD k)) ∧
    (∃ u, exec (.bitOr r t) s = .next u ∧ OnlyRegBecomes r (u.reg r) s u ∧
      ∀ k, k < 16 → (u.reg r).getLsbD k = ((s.reg r).getLsbD k || (s.reg t).getLsbD k)) ∧
    (∃ u, exec (.bitXor r t) s = .next u ∧ OnlyRegBecomes r (u.reg r) s u ∧
      ∀ k, k < 16 → (u.reg r).getLsbD k = xor ((s.reg r).getLsbD k) ((s.reg t).getLsbD k))

/-- Rule R118, NOT: one's complement. -/
def Obligations.NotInvertsEveryBit : Prop :=
  (∀ w : Word, opcodeOf w = 6 → fieldS w = 3 → decode w = .bitNot (fieldR w)) ∧
  ∀ (r : Nibble) (s : State),
    ∃ u, exec (.bitNot r) s = .next u ∧ OnlyRegBecomes r (u.reg r) s u ∧
      (∀ k, k < 16 → (u.reg r).getLsbD k = !(s.reg r).getLsbD k) ∧
      (u.reg r).toInt = -(s.reg r).toInt - 1

/-- SHL keeps the low 16 bits of the doubled value, as ADD with R = T does (decision D3; log entry 11). -/
def Obligations.ShlKeepsTheLowBitsOfTheDouble : Prop :=
  (∀ w : Word, opcodeOf w = 7 → fieldS w = 0 → decode w = .shl (fieldR w)) ∧
  ∀ (r : Nibble) (s : State),
    ∃ u, exec (.shl r) s = .next u ∧ OnlyRegBecomes r (u.reg r) s u ∧
      (u.reg r).toNat = 2 * (s.reg r).toNat % 65536 ∧
      (u.reg r).toInt = wrap16 (2 * (s.reg r).toInt) ∧ exec (.add r r) s = .next u

/-- SHR is the arithmetic shift: bit 15 is copied, and the value is halved and rounded down (the standard
meaning, G2; log entry 20). -/
def Obligations.ShrHalvesRoundingDown : Prop :=
  (∀ w : Word, opcodeOf w = 7 → fieldS w = 1 → decode w = .shr (fieldR w)) ∧
  ∀ (r : Nibble) (s : State),
    ∃ u, exec (.shr r) s = .next u ∧ OnlyRegBecomes r (u.reg r) s u ∧
      (u.reg r).toInt = (s.reg r).toInt.fdiv 2 ∧
      (u.reg r).getLsbD 15 = (s.reg r).getLsbD 15 ∧
      ∀ k, k < 15 → (u.reg r).getLsbD k = (s.reg r).getLsbD (k + 1)

/-- Rules R114, R122, R133: NOP5, NOP7 and NOP8 change nothing in the execute step. -/
def Obligations.ReservedSubfieldsFiveSevenEightDoNothing : Prop :=
  (∀ w : Word, 2 ≤ (fieldS w).toNat →
    (opcodeOf w = 5 → decode w = .nop5 (fieldS w)) ∧ (opcodeOf w = 7 → decode w = .nop7 (fieldS w)) ∧
    (opcodeOf w = 8 → decode w = .nop8 (fieldS w))) ∧
  ∀ (q : Nibble) (s : State),
    (∃ t, exec (.nop5 q) s = .next t ∧ NothingChanges s t) ∧
    (∃ t, exec (.nop7 q) s = .next t ∧ NothingChanges s t) ∧
    (∃ t, exec (.nop8 q) s = .next t ∧ NothingChanges s t)

/-- NOP6 and NOP9 change nothing in the execute step (decision D4, policy nop; log entry 10). -/
def Obligations.ReservedSubfieldsSixNineDoNothing : Prop :=
  (∀ w : Word,
    (opcodeOf w = 6 → 4 ≤ (fieldS w).toNat → decode w = .nop6 (fieldS w)) ∧
    (opcodeOf w = 9 → 2 ≤ (fieldS w).toNat → decode w = .nop9 (fieldS w))) ∧
  ∀ (q : Nibble) (s : State),
    (∃ t, exec (.nop6 q) s = .next t ∧ NothingChanges s t) ∧
    (∃ t, exec (.nop9 q) s = .next t ∧ NothingChanges s t)

/-! ### Control transfer -/

/-- Rule R131, JZ: taken exactly when the register is 0; the target is XY = T, since S = 0. -/
def Obligations.JzBranchesExactlyOnZero : Prop :=
  (∀ w : Word, opcodeOf w = 8 → fieldS w = 0 →
    decode w = .jz (fieldR w) (fieldT w) ∧ (fieldXY w).toNat = (fieldT w).toNat) ∧
  ∀ (r t : Nibble) (s : State), ∃ u, exec (.jz r t) s = .next u ∧
    (s.reg r = 0 → OnlyPcBecomes (BitVec.ofNat 9 t.toNat) s u) ∧ (s.reg r ≠ 0 → NothingChanges s u)

/-- Rule R132, JMP: always taken; the target is XY = 0x10 + T, since S = 1. -/
def Obligations.JmpAlwaysSetsThePc : Prop :=
  (∀ w : Word, opcodeOf w = 8 → fieldS w = 1 →
    decode w = .jmp (fieldT w) ∧ (fieldXY w).toNat = 16 + (fieldT w).toNat) ∧
  ∀ (t : Nibble) (s : State), ∃ u, exec (.jmp t) s = .next u ∧
    OnlyPcBecomes (BitVec.ofNat 9 (16 + t.toNat)) s u

/-- Rule R134, JEQ: taken exactly when the two patterns are equal; the S nibble is used twice. -/
def Obligations.JeqBranchesExactlyOnEqual : Prop :=
  (∀ w : Word, opcodeOf w = 11 →
    decode w = .jeq (fieldR w) (fieldS w) (fieldT w) ∧
    (fieldXY w).toNat = 16 * (fieldS w).toNat + (fieldT w).toNat) ∧
  ∀ (r q t : Nibble) (s : State), ∃ u, exec (.jeq r q t) s = .next u ∧
    (s.reg r = s.reg q → OnlyPcBecomes (BitVec.ofNat 9 (16 * q.toNat + t.toNat)) s u) ∧
    (s.reg r ≠ s.reg q → NothingChanges s u)

/-- Of all instructions only JZ, JMP and JEQ change the PC in the execute step, and each only within its
reach, so a jump never makes the PC an invalid index (rules R25, R130, R136; the reach is derived by the
spec). -/
def Obligations.OnlyJumpsChangeThePcWithinReach : Prop :=
  ∀ (i : Instr) (s u : State), exec i s = .next u → u.pc ≠ s.pc →
    (∃ r t, i = .jz r t ∧ u.pc.toNat < 16) ∨
    (∃ t, i = .jmp t ∧ 16 ≤ u.pc.toNat ∧ u.pc.toNat < 32) ∨
    (∃ r q t, i = .jeq r q t ∧ 16 * q.toNat ≤ u.pc.toNat ∧ u.pc.toNat < 16 * q.toNat + 16)

/-! ### Input and output -/

/-- IN takes the first element of the input source into its register (decision D7). -/
def Obligations.InTakesTheNextValue : Prop :=
  (∀ w : Word, opcodeOf w = 9 → fieldS w = 0 → decode w = .inp (fieldR w)) ∧
  ∀ (r : Nibble) (v : Word) (rest : List Word) (s : State), s.input = v :: rest →
    ∃ t, exec (.inp r) s = .next t ∧ t.reg r = v ∧ t.input = rest ∧ t.output = s.output ∧
      SameRegsBut r s t ∧ SameCells s t ∧ SamePcIr s t ∧ SameRunControl s t

/-- Rule R141, OUT: one event carrying the register's pattern, in every state. -/
def Obligations.OutEmitsTheRegister : Prop :=
  (∀ w : Word, opcodeOf w = 9 → fieldS w = 1 → decode w = .out (fieldR w)) ∧
  ∀ (r : Nibble) (s : State), ∃ t, exec (.out r) s = .next t ∧ OnlyEmits (s.reg r) s t

/-- A step leaves the trace or appends one value to it, and then the instruction is OUTS or OUT and the value
its register's (the trace is decision D8). -/
def Obligations.OutputTraceOnlyGrowsByOutputs : Prop :=
  ∀ s t : State, step s = .next t → t.output = s.output ∨
    ∃ r, (decode (s.cell (s.pc.setWidth 8)) = .outs r ∨ decode (s.cell (s.pc.setWidth 8)) = .out r) ∧
      t.output = s.output ++ [s.reg r]

/-- A step leaves the input source or removes its first element, and then the instruction is an IN and the
value stands in its register (decision D7). -/
def Obligations.InputIsConsumedOnlyByIn : Prop :=
  ∀ s t : State, step s = .next t → t.input = s.input ∨
    ∃ r v, decode (s.cell (s.pc.setWidth 8)) = .inp r ∧ s.input = v :: t.input ∧ t.reg r = v

/-! ### Stops -/

/-- HALT stops the run and changes nothing else (RUN and STOP_REASON are decision D6). -/
def Obligations.HaltStopsTheRun : Prop :=
  (∀ w : Word, opcodeOf w = 12 → decode w = .halt) ∧
  ∀ s : State, ∃ t, exec .halt s = .next t ∧ OnlyStops .halt s.badOpcode s t

/-- Each invalid opcode stops the run, records itself and changes nothing else (RUN, STOP_REASON and
BAD_OPCODE are decision D6). -/
def Obligations.InvalidOpcodeStopsAndIsRecorded : Prop :=
  (∀ w : Word, (opcodeOf w = 0 → decode w = .invalid0) ∧ (opcodeOf w = 10 → decode w = .invalid10) ∧
    (opcodeOf w = 13 → decode w = .invalid13) ∧ (opcodeOf w = 14 → decode w = .invalid14) ∧
    (opcodeOf w = 15 → decode w = .invalid15)) ∧
  ∀ s : State,
    (∃ t, exec .invalid0 s = .next t ∧ OnlyStops .invalid 0 s t) ∧
    (∃ t, exec .invalid10 s = .next t ∧ OnlyStops .invalid 10 s t) ∧
    (∃ t, exec .invalid13 s = .next t ∧ OnlyStops .invalid 13 s t) ∧
    (∃ t, exec .invalid14 s = .next t ∧ OnlyStops .invalid 14 s t) ∧
    (∃ t, exec .invalid15 s = .next t ∧ OnlyStops .invalid 15 s t)

/-- A step that ends a run is one of the three designed stops, and it is precise: registers, cells and both
streams are as before the step (decisions D6, D14). -/
def Obligations.RunStopsInThreeWaysOnly : Prop :=
  ∀ s t : State, step s = .next t → t.run = .halted →
    SameRegs s t ∧ SameCells s t ∧ SameStreams s t ∧
    ((t.stopReason = .pcExhausted ∧ 256 ≤ s.pc.toNat ∧ SamePcIr s t ∧ t.badOpcode = s.badOpcode) ∨
     (s.pc.toNat < 256 ∧ t.pc = s.pc + 1 ∧ t.ir = s.cell (s.pc.setWidth 8) ∧
       ((t.stopReason = .halt ∧ opcodeOf t.ir = 12 ∧ t.badOpcode = s.badOpcode) ∨
        (t.stopReason = .invalid ∧ t.badOpcode = opcodeOf t.ir ∧
          opcodeOf t.ir ∈ [0, 10, 13, 14, 15]))))

/-- At address 255 HALT and INVALID keep their own reason with PC = 256, and a JMP continues at its target:
the guard is not evaluated again (the spec derives this; decisions D1, D6). -/
def Obligations.LastAddressKeepsTheStopReason : Prop :=
  ∀ s : State, s.run = .running → s.pc = 255 →
    (opcodeOf (s.cell 255) = 12 → ∃ t, step s = .next t ∧ t.run = .halted ∧ t.stopReason = .halt ∧
      t.pc = 256) ∧
    (opcodeOf (s.cell 255) ∈ [0, 10, 13, 14, 15] → ∃ t, step s = .next t ∧ t.run = .halted ∧
      t.stopReason = .invalid ∧ t.badOpcode = opcodeOf (s.cell 255) ∧ t.pc = 256) ∧
    (opcodeOf (s.cell 255) = 8 → fieldS (s.cell 255) = 1 → ∃ t, step s = .next t ∧ t.run = .running ∧
      t.pc.toNat = 16 + (fieldT (s.cell 255)).toNat)

/-! ### What every instruction leaves unchanged -/

/-- An execute step changes no register but the one rule R22's table names. -/
def Obligations.OnlyTheWrittenRegisterChanges : Prop :=
  ∀ (i : Instr) (s t : State), exec i s = .next t →
    ∀ j, regWritten i ≠ some j → t.reg j = s.reg j

/-- An execute step depends on no register but those rule R22's table says it reads: from two states that
differ in other registers only, it writes the same value and leaves the same state but for those registers. An
IN is enabled only with an input available (decision D7), so the premise asks for one. -/
def Obligations.UnreadRegistersDoNotMatter : Prop :=
  ∀ (i : Instr) (s t t' : State) (y : Vector Word 16),
    (∀ r, i = .inp r → s.input ≠ []) →
    (∀ j ∈ regsRead i, (s.withRegs y).reg j = s.reg j) →
    exec i s = .next t → exec i (s.withRegs y) = .next t' →
    (∀ j, regWritten i = some j → t'.reg j = t.reg j) ∧ t'.withRegs t.x = t

/-- An execute step changes no cell but the one a STORE names, and no instruction a word decodes to changes
cell 0 (rules R41, R47). -/
def Obligations.OnlyStoreChangesMemory : Prop :=
  (∀ (i : Instr) (s t : State), exec i s = .next t → ∀ a, cellStored i ≠ some a → t.cell a = s.cell a) ∧
  ∀ s t : State, step s = .next t → t.cell 0 = s.cell 0

/-- A STORE is seen by the next fetch, also when it overwrites the instruction that is fetched next or its own
word (the spec derives this). The stored word is fetched by the next step unless it is an IN that has to wait,
which holds before the fetch (decision D7). -/
def Obligations.StoreIsSeenByTheNextFetch : Prop :=
  ∀ (s t : State) (r : Nibble) (a : Addr), s.run = .running → s.pc.toNat < 256 →
    decode (s.cell (s.pc.setWidth 8)) = .store r a → step s = .next t →
    t.pc = s.pc + 1 ∧ t.cell a = s.reg r ∧
    (t.pc.toNat = a.toNat → ¬(opcodeOf (s.reg r) = 9 ∧ fieldS (s.reg r) = 0 ∧ t.input = []) →
      ∃ u, step t = .next u ∧ u.ir = s.reg r)

/-! ### Memory -/

/-- Rule R42: a write makes its cell hold the value and leaves every other cell and every other piece of state
unchanged; a cell nothing wrote since reset reads 0. -/
def Obligations.CellReadsTheLatestWrite : Prop :=
  (∀ (s : State) (a : Addr) (v : Word), OnlyCellBecomes a v s (s.setCell a v)) ∧
  (∀ a : Addr, State.reset.cell a = 0) ∧ ∀ (s : State) (a : Addr), s.cleared.cell a = 0

/-- Two memories in canonical form that read alike at every address are the same data (log entry 1). -/
def Obligations.CanonicalMemoriesAreEqualWhenTheyReadAlike : Prop :=
  ∀ m m' : Memory, m.wf → m'.wf → (∀ a : Addr, m.read a = m'.read a) → m = m'

/-! ### Invariants and runs -/

/-- The invariant holds at reset: the memory is in the canonical form, which is the model's choice (log entry
1), and the run control, which decisions D6 and D12 give the machine and its reset value, is consistent. -/
def Obligations.ResetMeetsTheInvariant : Prop := State.reset.Inv

/-- Every step keeps the invariant: memory in its canonical form, run control consistent (decision D6; log
entry 1). -/
def Obligations.StepKeepsTheInvariant : Prop :=
  ∀ s t : State, s.Inv → step s = .next t → t.Inv

/-- Every host operation and every arriving input value keeps the invariant: the model's canonical memory form
(log entry 1) and consistent run control (decision D6). -/
def Obligations.HostOperationsKeepTheInvariant : Prop :=
  ∀ (op : HostOp) (s t : State), s.Inv → hostOp op s = .next t → t.Inv

/-- The engine itself never takes the PC beyond 256 (decision D1). -/
def Obligations.StepKeepsThePcAtMost256 : Prop :=
  ∀ s t : State, s.pc.toNat ≤ 256 → step s = .next t → t.pc.toNat ≤ 256

/-- A run keeps the invariant, of which the canonical memory form is the model's choice (log entry 1); when it
has stopped it is in a final state (the spec's definition of the end of a run; decision D6), and more fuel
changes nothing, since the model's run stays where its step is the fault notRunning (log entry 6). -/
def Obligations.StoppedRunIsFinalAndStaysSo : Prop :=
  ∀ (k : Nat) (s : State), s.Inv → s.run = .running →
    (s.runFor k).Inv ∧
    ((s.runFor k).run = .halted → (s.runFor k).isFinal ∧ ∀ j, s.runFor (k + j) = s.runFor k)

/-- Whatever a run does, the output trace it began with stays its beginning, and the input source it leaves is
what is left of the one it began with (decisions D7, D8). No value arrives within the run; the run stays where
the model's step is the fault notRunning or an IN waits (log entries 4 and 6). -/
def Obligations.RunOnlyAppendsOutputAndConsumesInput : Prop :=
  ∀ (k : Nat) (s : State), s.output <+: (s.runFor k).output ∧ (s.runFor k).input <:+ s.input

/-! ### Reset and the host port -/

/-- The machine at creation: registers, cells, PC and IR zero, idle (the spec gives the PC, the IR and the
run control by decision D12), and both streams empty (the model's choice, log entry 3). -/
def Obligations.ResetStateIsAllZero : Prop :=
  (∀ j, State.reset.reg j = 0) ∧ (∀ a, State.reset.cell a = 0) ∧ State.reset.pc = 0 ∧
  State.reset.ir = 0 ∧ State.reset.run = .halted ∧ State.reset.stopReason = .none ∧
  State.reset.badOpcode = 0 ∧ State.reset.input = [] ∧ State.reset.output = []

/-- The reset operation zeroes registers, cells, PC, IR and run control, and touches neither stream; with the
streams empty it gives the state at creation (decision D12). -/
def Obligations.HostResetZeroesTheMachine : Prop :=
  ∀ s : State, s.run = .halted → ∃ t, hostOp .reset s = .next t ∧
    (∀ j, t.reg j = 0) ∧ (∀ a, t.cell a = 0) ∧ t.pc = 0 ∧ t.ir = 0 ∧ t.run = .halted ∧
    t.stopReason = .none ∧ t.badOpcode = 0 ∧ SameStreams s t ∧
    (s.input = [] → s.output = [] → t = State.reset)

/-- execute() starts a run at the current PC and changes nothing else (decisions D6, D10). -/
def Obligations.ExecuteStartsARunAtTheCurrentPc : Prop :=
  ∀ s : State, s.run = .halted → ∃ t, hostOp .execute s = .next t ∧
    t.run = .running ∧ t.stopReason = .none ∧ t.badOpcode = 0 ∧
    SameRegs s t ∧ SameCells s t ∧ SamePcIr s t ∧ SameStreams s t

/-- load(words, start) puts each word in its cell up to cell 255, drops the rest, and changes no other cell
and nothing else. -/
def Obligations.LoadPlacesWordsInConsecutiveCells : Prop :=
  ∀ (s : State) (ws : List Word) (start : Nat), s.run = .halted → start < 256 →
    ∃ t, hostOp (.load ws start) s = .next t ∧
      (∀ (k : Nat) (w : Word), ws[k]? = some w → start + k < 256 →
        t.cell (BitVec.ofNat 8 (start + k)) = w) ∧
      (∀ b : Addr, (b.toNat < start ∨ start + ws.length ≤ b.toNat) → t.cell b = s.cell b) ∧
      SameRegs s t ∧ SamePcIr s t ∧ SameRunControl s t ∧ SameStreams s t

/-- While RUN = 1 every operation of the host that would change the state is refused; that the name is
hostWhileRunning also where the index is out of range is the model's choice (log entry 17). While RUN = 0 an
index out of its range is refused, for load too, and an index in its range sets exactly that register, cell, PC
or IR (decisions D9, D18; what load does in range is LoadPlacesWordsInConsecutiveCells). In every state an input
value may arrive, which appends it to the input source and changes nothing else (decision D7; that it may arrive
between any two steps is log entry 4). -/
def Obligations.HostWritesOnlyWhileIdleAndInRange : Prop :=
  (∀ (op : HostOp) (s : State), s.run = .running → (∀ v, op ≠ .supplyInput v) →
    hostOp op s = .refused .hostWhileRunning) ∧
  (∀ (s : State) (n : Nat) (v : Word), s.run = .halted →
    (if n < 16 then ∃ t, hostOp (.setReg n v) s = .next t ∧ OnlyRegBecomes (BitVec.ofNat 4 n) v s t
      else hostOp (.setReg n v) s = .refused .hostIndexOutOfRange) ∧
    (if n < 256 then ∃ t, hostOp (.setMem n v) s = .next t ∧ OnlyCellBecomes (BitVec.ofNat 8 n) v s t
      else hostOp (.setMem n v) s = .refused .hostIndexOutOfRange) ∧
    (if n < 512 then ∃ t, hostOp (.setPc n) s = .next t ∧ OnlyPcBecomes (BitVec.ofNat 9 n) s t
      else hostOp (.setPc n) s = .refused .hostIndexOutOfRange) ∧
    ∃ t, hostOp (.setIr v) s = .next t ∧ t.ir = v ∧ t.pc = s.pc ∧ SameRegs s t ∧ SameCells s t ∧
      SameRunControl s t ∧ SameStreams s t) ∧
  (∀ (s : State) (ws : List Word) (start : Nat), s.run = .halted → 256 ≤ start →
    hostOp (.load ws start) s = .refused .hostIndexOutOfRange) ∧
  ∀ (s : State) (v : Word), ∃ t, hostOp (.supplyInput v) s = .next t ∧ t.input = s.input ++ [v] ∧
    t.output = s.output ∧ SameRegs s t ∧ SameCells s t ∧ SamePcIr s t ∧ SameRunControl s t

/-- A value the host writes into IR has no effect on a step that fetches (the spec derives this): one with the PC
a memory index, whose word is not an IN that has to wait (decision D7). -/
def Obligations.HostValueInIrHasNoEffect : Prop :=
  ∀ (s : State) (v : Word), s.run = .running → s.pc.toNat < 256 →
    ¬(opcodeOf (s.cell (s.pc.setWidth 8)) = 9 ∧ fieldS (s.cell (s.pc.setWidth 8)) = 0 ∧ s.input = []) →
    step (s.setIr v) = step s

/-- The reads of the port: an item while RUN = 0 and the index is in range, a refusal otherwise. That an index
out of range is refused is decision D18. That a read in a run is refused, and with the name hostWhileRunning
whatever the index, is the model's choice: decision D9 refuses only operations that change the state (log
entries 25 and 17). -/
def Obligations.HostReadsGiveTheItemOrRefuse : Prop :=
  ∀ (s : State) (n : Nat),
    (s.run = .running → hostGetReg n s = .error .hostWhileRunning ∧
      hostGetMem n s = .error .hostWhileRunning ∧ hostGetPc s = .error .hostWhileRunning ∧
      hostGetIr s = .error .hostWhileRunning) ∧
    (s.run = .halted →
      (if n < 16 then hostGetReg n s = .ok (s.reg (BitVec.ofNat 4 n))
        else hostGetReg n s = .error .hostIndexOutOfRange) ∧
      (if n < 256 then hostGetMem n s = .ok (s.cell (BitVec.ofNat 8 n))
        else hostGetMem n s = .error .hostIndexOutOfRange) ∧
      (∃ v, hostGetPc s = .ok v ∧ v.toNat = s.pc.toNat) ∧ hostGetIr s = .ok s.ir)

/-- The status query shows the full register file, all 256 cells, the PC and the IR, in every state. -/
def Obligations.StatusShowsRegistersMemoryPcAndIr : Prop :=
  ∀ s : State, s.status.regs.length = 16 ∧ s.status.cells.length = 256 ∧
    (∀ r : Nibble, s.status.regs[r.toNat]? = some (s.reg r)) ∧
    (∀ a : Addr, s.status.cells[a.toNat]? = some (s.cell a)) ∧
    s.status.pc = s.pc ∧ s.status.ir = s.ir
end

