-- ==== Sys2Proof/Laws/Decode.lean ====
section
/-!
SUPPORT. The fields of a word built from fields are those fields, and a word is its fields: what a proof
about decoding and encoding cites instead of bit arithmetic (rule R61).
-/

namespace Sys2Proof

@[simp] theorem opcodeOf_wordRST (op r s t : Nibble) : opcodeOf (wordRST op r s t) = op := by
  unfold opcodeOf wordRST
  apply BitVec.eq_of_getLsbD_eq
  intro i hi
  simp only [BitVec.getLsbD_extractLsb', BitVec.getLsbD_append]
  interval_cases i <;> simp

@[simp] theorem fieldR_wordRST (op r s t : Nibble) : fieldR (wordRST op r s t) = r := by
  unfold fieldR wordRST
  apply BitVec.eq_of_getLsbD_eq
  intro i hi
  simp only [BitVec.getLsbD_extractLsb', BitVec.getLsbD_append]
  interval_cases i <;> simp

@[simp] theorem fieldS_wordRST (op r s t : Nibble) : fieldS (wordRST op r s t) = s := by
  unfold fieldS wordRST
  apply BitVec.eq_of_getLsbD_eq
  intro i hi
  simp only [BitVec.getLsbD_extractLsb', BitVec.getLsbD_append]
  interval_cases i <;> simp

@[simp] theorem fieldT_wordRST (op r s t : Nibble) : fieldT (wordRST op r s t) = t := by
  unfold fieldT wordRST
  apply BitVec.eq_of_getLsbD_eq
  intro i hi
  simp only [BitVec.getLsbD_extractLsb', BitVec.getLsbD_append]
  interval_cases i <;> simp

@[simp] theorem opcodeOf_wordRXY (op r : Nibble) (xy : Addr) : opcodeOf (wordRXY op r xy) = op := by
  unfold opcodeOf wordRXY
  apply BitVec.eq_of_getLsbD_eq
  intro i hi
  simp only [BitVec.getLsbD_extractLsb', BitVec.getLsbD_append]
  interval_cases i <;> simp

@[simp] theorem fieldR_wordRXY (op r : Nibble) (xy : Addr) : fieldR (wordRXY op r xy) = r := by
  unfold fieldR wordRXY
  apply BitVec.eq_of_getLsbD_eq
  intro i hi
  simp only [BitVec.getLsbD_extractLsb', BitVec.getLsbD_append]
  interval_cases i <;> simp

@[simp] theorem fieldXY_wordRXY (op r : Nibble) (xy : Addr) : fieldXY (wordRXY op r xy) = xy := by
  unfold fieldXY wordRXY
  apply BitVec.eq_of_getLsbD_eq
  intro i hi
  simp only [BitVec.getLsbD_extractLsb', BitVec.getLsbD_append]
  interval_cases i <;> simp

/-- XY is S followed by T (rule R62). -/
theorem fieldXY_eq (w : Word) : fieldXY w = fieldS w ++ fieldT w := by
  unfold fieldXY fieldS fieldT
  apply BitVec.eq_of_getLsbD_eq
  intro i hi
  simp only [BitVec.getLsbD_extractLsb', BitVec.getLsbD_append]
  interval_cases i <;> simp

/-- A word is its four fields. -/
theorem wordRST_fields (w : Word) :
    wordRST (opcodeOf w) (fieldR w) (fieldS w) (fieldT w) = w := by
  unfold wordRST opcodeOf fieldR fieldS fieldT
  apply BitVec.eq_of_getLsbD_eq
  intro i hi
  simp only [BitVec.getLsbD_extractLsb', BitVec.getLsbD_append]
  interval_cases i <;> simp

end Sys2Proof
end

