-- ==== Sys2Proof/Laws/State.lean ====
section
/-!
SUPPORT. What each update of the state leaves in each field, true by definition, so that no later proof
unfolds a record update; and the same for the two views `reg` and `cell` where an update does not touch them.
-/

namespace Sys2Proof.Machine

/-! ### setReg -/

@[simp] theorem State.setReg_x (s : State) (r : Nibble) (v : Word) : (s.setReg r v).x = s.x.set r.toNat v r.isLt := rfl
@[simp] theorem State.setReg_mem (s : State) (r : Nibble) (v : Word) : (s.setReg r v).mem = s.mem := rfl
@[simp] theorem State.setReg_pc (s : State) (r : Nibble) (v : Word) : (s.setReg r v).pc = s.pc := rfl
@[simp] theorem State.setReg_ir (s : State) (r : Nibble) (v : Word) : (s.setReg r v).ir = s.ir := rfl
@[simp] theorem State.setReg_run (s : State) (r : Nibble) (v : Word) : (s.setReg r v).run = s.run := rfl
@[simp] theorem State.setReg_stopReason (s : State) (r : Nibble) (v : Word) : (s.setReg r v).stopReason = s.stopReason := rfl
@[simp] theorem State.setReg_badOpcode (s : State) (r : Nibble) (v : Word) : (s.setReg r v).badOpcode = s.badOpcode := rfl
@[simp] theorem State.setReg_input (s : State) (r : Nibble) (v : Word) : (s.setReg r v).input = s.input := rfl
@[simp] theorem State.setReg_output (s : State) (r : Nibble) (v : Word) : (s.setReg r v).output = s.output := rfl
@[simp] theorem State.setReg_cell (s : State) (r : Nibble) (v : Word) (b : Addr) : (s.setReg r v).cell b = s.cell b := rfl

/-! ### setCell -/

@[simp] theorem State.setCell_x (s : State) (a : Addr) (v : Word) : (s.setCell a v).x = s.x := rfl
@[simp] theorem State.setCell_mem (s : State) (a : Addr) (v : Word) : (s.setCell a v).mem = s.mem.write a v := rfl
@[simp] theorem State.setCell_pc (s : State) (a : Addr) (v : Word) : (s.setCell a v).pc = s.pc := rfl
@[simp] theorem State.setCell_ir (s : State) (a : Addr) (v : Word) : (s.setCell a v).ir = s.ir := rfl
@[simp] theorem State.setCell_run (s : State) (a : Addr) (v : Word) : (s.setCell a v).run = s.run := rfl
@[simp] theorem State.setCell_stopReason (s : State) (a : Addr) (v : Word) : (s.setCell a v).stopReason = s.stopReason := rfl
@[simp] theorem State.setCell_badOpcode (s : State) (a : Addr) (v : Word) : (s.setCell a v).badOpcode = s.badOpcode := rfl
@[simp] theorem State.setCell_input (s : State) (a : Addr) (v : Word) : (s.setCell a v).input = s.input := rfl
@[simp] theorem State.setCell_output (s : State) (a : Addr) (v : Word) : (s.setCell a v).output = s.output := rfl
@[simp] theorem State.setCell_reg (s : State) (a : Addr) (v : Word) (j : Nibble) : (s.setCell a v).reg j = s.reg j := rfl

/-! ### setPc -/

@[simp] theorem State.setPc_x (s : State) (p : Pc) : (s.setPc p).x = s.x := rfl
@[simp] theorem State.setPc_mem (s : State) (p : Pc) : (s.setPc p).mem = s.mem := rfl
@[simp] theorem State.setPc_pc (s : State) (p : Pc) : (s.setPc p).pc = p := rfl
@[simp] theorem State.setPc_ir (s : State) (p : Pc) : (s.setPc p).ir = s.ir := rfl
@[simp] theorem State.setPc_run (s : State) (p : Pc) : (s.setPc p).run = s.run := rfl
@[simp] theorem State.setPc_stopReason (s : State) (p : Pc) : (s.setPc p).stopReason = s.stopReason := rfl
@[simp] theorem State.setPc_badOpcode (s : State) (p : Pc) : (s.setPc p).badOpcode = s.badOpcode := rfl
@[simp] theorem State.setPc_input (s : State) (p : Pc) : (s.setPc p).input = s.input := rfl
@[simp] theorem State.setPc_output (s : State) (p : Pc) : (s.setPc p).output = s.output := rfl
@[simp] theorem State.setPc_reg (s : State) (p : Pc) (j : Nibble) : (s.setPc p).reg j = s.reg j := rfl
@[simp] theorem State.setPc_cell (s : State) (p : Pc) (b : Addr) : (s.setPc p).cell b = s.cell b := rfl

/-! ### setIr -/

@[simp] theorem State.setIr_x (s : State) (w : Word) : (s.setIr w).x = s.x := rfl
@[simp] theorem State.setIr_mem (s : State) (w : Word) : (s.setIr w).mem = s.mem := rfl
@[simp] theorem State.setIr_pc (s : State) (w : Word) : (s.setIr w).pc = s.pc := rfl
@[simp] theorem State.setIr_ir (s : State) (w : Word) : (s.setIr w).ir = w := rfl
@[simp] theorem State.setIr_run (s : State) (w : Word) : (s.setIr w).run = s.run := rfl
@[simp] theorem State.setIr_stopReason (s : State) (w : Word) : (s.setIr w).stopReason = s.stopReason := rfl
@[simp] theorem State.setIr_badOpcode (s : State) (w : Word) : (s.setIr w).badOpcode = s.badOpcode := rfl
@[simp] theorem State.setIr_input (s : State) (w : Word) : (s.setIr w).input = s.input := rfl
@[simp] theorem State.setIr_output (s : State) (w : Word) : (s.setIr w).output = s.output := rfl
@[simp] theorem State.setIr_reg (s : State) (w : Word) (j : Nibble) : (s.setIr w).reg j = s.reg j := rfl
@[simp] theorem State.setIr_cell (s : State) (w : Word) (b : Addr) : (s.setIr w).cell b = s.cell b := rfl

/-! ### emit -/

@[simp] theorem State.emit_x (s : State) (v : Word) : (s.emit v).x = s.x := rfl
@[simp] theorem State.emit_mem (s : State) (v : Word) : (s.emit v).mem = s.mem := rfl
@[simp] theorem State.emit_pc (s : State) (v : Word) : (s.emit v).pc = s.pc := rfl
@[simp] theorem State.emit_ir (s : State) (v : Word) : (s.emit v).ir = s.ir := rfl
@[simp] theorem State.emit_run (s : State) (v : Word) : (s.emit v).run = s.run := rfl
@[simp] theorem State.emit_stopReason (s : State) (v : Word) : (s.emit v).stopReason = s.stopReason := rfl
@[simp] theorem State.emit_badOpcode (s : State) (v : Word) : (s.emit v).badOpcode = s.badOpcode := rfl
@[simp] theorem State.emit_input (s : State) (v : Word) : (s.emit v).input = s.input := rfl
@[simp] theorem State.emit_output (s : State) (v : Word) : (s.emit v).output = s.output ++ [v] := rfl
@[simp] theorem State.emit_reg (s : State) (v : Word) (j : Nibble) : (s.emit v).reg j = s.reg j := rfl
@[simp] theorem State.emit_cell (s : State) (v : Word) (b : Addr) : (s.emit v).cell b = s.cell b := rfl

/-! ### dropInput -/

@[simp] theorem State.dropInput_x (s : State) : (s.dropInput).x = s.x := rfl
@[simp] theorem State.dropInput_mem (s : State) : (s.dropInput).mem = s.mem := rfl
@[simp] theorem State.dropInput_pc (s : State) : (s.dropInput).pc = s.pc := rfl
@[simp] theorem State.dropInput_ir (s : State) : (s.dropInput).ir = s.ir := rfl
@[simp] theorem State.dropInput_run (s : State) : (s.dropInput).run = s.run := rfl
@[simp] theorem State.dropInput_stopReason (s : State) : (s.dropInput).stopReason = s.stopReason := rfl
@[simp] theorem State.dropInput_badOpcode (s : State) : (s.dropInput).badOpcode = s.badOpcode := rfl
@[simp] theorem State.dropInput_input (s : State) : (s.dropInput).input = s.input.tail := rfl
@[simp] theorem State.dropInput_output (s : State) : (s.dropInput).output = s.output := rfl
@[simp] theorem State.dropInput_reg (s : State) (j : Nibble) : (s.dropInput).reg j = s.reg j := rfl
@[simp] theorem State.dropInput_cell (s : State) (b : Addr) : (s.dropInput).cell b = s.cell b := rfl

/-! ### deliver -/

@[simp] theorem State.deliver_x (s : State) (v : Word) : (s.deliver v).x = s.x := rfl
@[simp] theorem State.deliver_mem (s : State) (v : Word) : (s.deliver v).mem = s.mem := rfl
@[simp] theorem State.deliver_pc (s : State) (v : Word) : (s.deliver v).pc = s.pc := rfl
@[simp] theorem State.deliver_ir (s : State) (v : Word) : (s.deliver v).ir = s.ir := rfl
@[simp] theorem State.deliver_run (s : State) (v : Word) : (s.deliver v).run = s.run := rfl
@[simp] theorem State.deliver_stopReason (s : State) (v : Word) : (s.deliver v).stopReason = s.stopReason := rfl
@[simp] theorem State.deliver_badOpcode (s : State) (v : Word) : (s.deliver v).badOpcode = s.badOpcode := rfl
@[simp] theorem State.deliver_input (s : State) (v : Word) : (s.deliver v).input = s.input ++ [v] := rfl
@[simp] theorem State.deliver_output (s : State) (v : Word) : (s.deliver v).output = s.output := rfl
@[simp] theorem State.deliver_reg (s : State) (v : Word) (j : Nibble) : (s.deliver v).reg j = s.reg j := rfl
@[simp] theorem State.deliver_cell (s : State) (v : Word) (b : Addr) : (s.deliver v).cell b = s.cell b := rfl

/-! ### stop -/

@[simp] theorem State.stop_x (s : State) (c : StopReason) : (s.stop c).x = s.x := rfl
@[simp] theorem State.stop_mem (s : State) (c : StopReason) : (s.stop c).mem = s.mem := rfl
@[simp] theorem State.stop_pc (s : State) (c : StopReason) : (s.stop c).pc = s.pc := rfl
@[simp] theorem State.stop_ir (s : State) (c : StopReason) : (s.stop c).ir = s.ir := rfl
@[simp] theorem State.stop_run (s : State) (c : StopReason) : (s.stop c).run = .halted := rfl
@[simp] theorem State.stop_stopReason (s : State) (c : StopReason) : (s.stop c).stopReason = c := rfl
@[simp] theorem State.stop_badOpcode (s : State) (c : StopReason) : (s.stop c).badOpcode = s.badOpcode := rfl
@[simp] theorem State.stop_input (s : State) (c : StopReason) : (s.stop c).input = s.input := rfl
@[simp] theorem State.stop_output (s : State) (c : StopReason) : (s.stop c).output = s.output := rfl
@[simp] theorem State.stop_reg (s : State) (c : StopReason) (j : Nibble) : (s.stop c).reg j = s.reg j := rfl
@[simp] theorem State.stop_cell (s : State) (c : StopReason) (b : Addr) : (s.stop c).cell b = s.cell b := rfl

/-! ### stopInvalid -/

@[simp] theorem State.stopInvalid_x (s : State) (op : Nibble) : (s.stopInvalid op).x = s.x := rfl
@[simp] theorem State.stopInvalid_mem (s : State) (op : Nibble) : (s.stopInvalid op).mem = s.mem := rfl
@[simp] theorem State.stopInvalid_pc (s : State) (op : Nibble) : (s.stopInvalid op).pc = s.pc := rfl
@[simp] theorem State.stopInvalid_ir (s : State) (op : Nibble) : (s.stopInvalid op).ir = s.ir := rfl
@[simp] theorem State.stopInvalid_run (s : State) (op : Nibble) : (s.stopInvalid op).run = .halted := rfl
@[simp] theorem State.stopInvalid_stopReason (s : State) (op : Nibble) : (s.stopInvalid op).stopReason = .invalid := rfl
@[simp] theorem State.stopInvalid_badOpcode (s : State) (op : Nibble) : (s.stopInvalid op).badOpcode = op := rfl
@[simp] theorem State.stopInvalid_input (s : State) (op : Nibble) : (s.stopInvalid op).input = s.input := rfl
@[simp] theorem State.stopInvalid_output (s : State) (op : Nibble) : (s.stopInvalid op).output = s.output := rfl
@[simp] theorem State.stopInvalid_reg (s : State) (op : Nibble) (j : Nibble) : (s.stopInvalid op).reg j = s.reg j := rfl
@[simp] theorem State.stopInvalid_cell (s : State) (op : Nibble) (b : Addr) : (s.stopInvalid op).cell b = s.cell b := rfl

/-! ### startRun -/

@[simp] theorem State.startRun_x (s : State) : (s.startRun).x = s.x := rfl
@[simp] theorem State.startRun_mem (s : State) : (s.startRun).mem = s.mem := rfl
@[simp] theorem State.startRun_pc (s : State) : (s.startRun).pc = s.pc := rfl
@[simp] theorem State.startRun_ir (s : State) : (s.startRun).ir = s.ir := rfl
@[simp] theorem State.startRun_run (s : State) : (s.startRun).run = .running := rfl
@[simp] theorem State.startRun_stopReason (s : State) : (s.startRun).stopReason = .none := rfl
@[simp] theorem State.startRun_badOpcode (s : State) : (s.startRun).badOpcode = 0 := rfl
@[simp] theorem State.startRun_input (s : State) : (s.startRun).input = s.input := rfl
@[simp] theorem State.startRun_output (s : State) : (s.startRun).output = s.output := rfl
@[simp] theorem State.startRun_reg (s : State) (j : Nibble) : (s.startRun).reg j = s.reg j := rfl
@[simp] theorem State.startRun_cell (s : State) (b : Addr) : (s.startRun).cell b = s.cell b := rfl

/-! ### cleared -/

@[simp] theorem State.cleared_x (s : State) : (s.cleared).x = Vector.replicate 16 0 := rfl
@[simp] theorem State.cleared_mem (s : State) : (s.cleared).mem = [] := rfl
@[simp] theorem State.cleared_pc (s : State) : (s.cleared).pc = 0 := rfl
@[simp] theorem State.cleared_ir (s : State) : (s.cleared).ir = 0 := rfl
@[simp] theorem State.cleared_run (s : State) : (s.cleared).run = .halted := rfl
@[simp] theorem State.cleared_stopReason (s : State) : (s.cleared).stopReason = .none := rfl
@[simp] theorem State.cleared_badOpcode (s : State) : (s.cleared).badOpcode = 0 := rfl
@[simp] theorem State.cleared_input (s : State) : (s.cleared).input = s.input := rfl
@[simp] theorem State.cleared_output (s : State) : (s.cleared).output = s.output := rfl

/-! ### fetch -/

@[simp] theorem State.fetch_x (s : State) : (s.fetch).x = s.x := rfl
@[simp] theorem State.fetch_mem (s : State) : (s.fetch).mem = s.mem := rfl
@[simp] theorem State.fetch_pc (s : State) : (s.fetch).pc = s.pc + 1 := rfl
@[simp] theorem State.fetch_ir (s : State) : (s.fetch).ir = s.fetchWord := rfl
@[simp] theorem State.fetch_run (s : State) : (s.fetch).run = s.run := rfl
@[simp] theorem State.fetch_stopReason (s : State) : (s.fetch).stopReason = s.stopReason := rfl
@[simp] theorem State.fetch_badOpcode (s : State) : (s.fetch).badOpcode = s.badOpcode := rfl
@[simp] theorem State.fetch_input (s : State) : (s.fetch).input = s.input := rfl
@[simp] theorem State.fetch_output (s : State) : (s.fetch).output = s.output := rfl
@[simp] theorem State.fetch_reg (s : State) (j : Nibble) : (s.fetch).reg j = s.reg j := rfl
@[simp] theorem State.fetch_cell (s : State) (b : Addr) : (s.fetch).cell b = s.cell b := rfl

end Sys2Proof.Machine
end

