-- ==== Sys2Proof/Laws/Memory.lean ====
section
/-!
SUPPORT. What the memory and register operations do: the read laws (rule R42) and the canonical form, which
every memory operation keeps.
-/

namespace Sys2Proof.Machine

/-! ### The read laws -/

/-- An empty list is the memory of zeros. -/
theorem Memory.read_nil (a : Addr) : Memory.read [] a = 0 := rfl

theorem Memory.lookup_cons_if (m : Memory) (a j : Nat) (u : Word) :
    List.lookup j ((a, u) :: m) = if j = a then some u else m.lookup j := by
  rw [List.lookup_cons]
  by_cases h : j = a
  · simp [h]
  · rw [beq_false_of_ne h, if_neg h]

theorem Memory.lookup_without (m : Memory) (k j : Nat) :
    (m.without k).lookup j = if j = k then none else m.lookup j := by
  induction m with
  | nil => simp [Memory.without]
  | cons c m ih =>
    obtain ⟨a, u⟩ := c
    rw [Memory.lookup_cons_if]
    by_cases hak : a = k
    · rw [show Memory.without ((a, u) :: m) k = Memory.without m k by simp [Memory.without, hak], ih]
      by_cases hjk : j = k
      · simp [hjk]
      · rw [if_neg hjk, if_neg hjk, if_neg (by omega)]
    · rw [show Memory.without ((a, u) :: m) k = (a, u) :: Memory.without m k by
        simp [Memory.without, hak], Memory.lookup_cons_if, ih]
      by_cases hja : j = a
      · rw [if_pos hja, if_pos hja, if_neg (by omega)]
      · rw [if_neg hja, if_neg hja]

theorem Memory.lookup_place (m : Memory) (k j : Nat) (v : Word) (hk : m.lookup k = none) :
    (m.place k v).lookup j = if j = k then some v else m.lookup j := by
  induction m with
  | nil => rw [Memory.place, Memory.lookup_cons_if]
  | cons c m ih =>
    obtain ⟨a, u⟩ := c
    rw [Memory.lookup_cons_if] at hk
    have hka : k ≠ a := by rintro rfl; simp at hk
    rw [if_neg hka] at hk
    simp only [Memory.place]
    split
    · rw [Memory.lookup_cons_if]
    · rw [Memory.lookup_cons_if, Memory.lookup_cons_if, ih hk]
      by_cases hja : j = a
      · rw [if_pos hja, if_pos hja, if_neg (by omega)]
      · rw [if_neg hja, if_neg hja]

/-- Reading after a write, on every list: the cell written reads as the value, every other cell as before. -/
theorem Memory.read_write (m : Memory) (a b : Addr) (v : Word) :
    (m.write a v).read b = if b = a then v else m.read b := by
  have hab : (b.toNat = a.toNat) = (b = a) := by rw [BitVec.toNat_inj]
  unfold Memory.write Memory.read
  split
  · simp only [Memory.lookup_without, hab]
    split <;> simp_all
  · rw [Memory.lookup_place _ _ _ _ (by simp [Memory.lookup_without])]
    simp only [Memory.lookup_without, hab]
    split <;> simp_all

/-! ### The canonical form -/

theorem Memory.wf_nil : Memory.wf [] := by simp [Memory.wf]

theorem Memory.without_wf {m : Memory} (h : m.wf) (k : Nat) : (m.without k).wf :=
  ⟨h.1.filter _, fun c hc => h.2 c (List.mem_of_mem_filter hc)⟩

theorem Memory.mem_place {m : Memory} {k : Nat} {v : Word} {c : Nat × Word} :
    c ∈ m.place k v ↔ c = (k, v) ∨ c ∈ m := by
  induction m with
  | nil => simp [Memory.place]
  | cons d m ih =>
    simp only [Memory.place]
    split
    · simp
    · simp only [List.mem_cons, ih]; tauto

theorem Memory.place_sorted {m : Memory} {k : Nat} {v : Word}
    (h : m.Pairwise (fun b c => b.1 < c.1)) (hk : ∀ c ∈ m, c.1 ≠ k) :
    (m.place k v).Pairwise (fun b c => b.1 < c.1) := by
  induction m with
  | nil => simp [Memory.place]
  | cons d m ih =>
    obtain ⟨hd, hm⟩ := List.pairwise_cons.mp h
    simp only [Memory.place]
    split
    · rename_i hlt
      refine List.pairwise_cons.mpr ⟨fun c hc => ?_, h⟩
      obtain rfl | hc := List.mem_cons.mp hc
      · exact hlt
      · exact hlt.trans (hd c hc)
    · rename_i hge
      refine List.pairwise_cons.mpr ⟨fun c hc => ?_, ih hm fun c hc => hk c (List.mem_cons_of_mem d hc)⟩
      obtain rfl | hc := Memory.mem_place.mp hc
      · have := hk d List.mem_cons_self
        simp only
        omega
      · exact hd c hc

/-- A write keeps the canonical form. -/
theorem Memory.write_wf {m : Memory} (h : m.wf) (a : Addr) (v : Word) : (m.write a v).wf := by
  unfold Memory.write
  split
  · exact Memory.without_wf h _
  · rename_i hv
    have hw := Memory.without_wf h a.toNat
    refine ⟨Memory.place_sorted hw.1 fun c hc => ?_, fun c hc => ?_⟩
    · simpa using (List.mem_filter.mp hc).2
    · obtain rfl | hc := Memory.mem_place.mp hc
      · exact ⟨a.isLt, hv⟩
      · exact hw.2 c hc

/-- The memory at reset is canonical. -/
theorem State.reset_mem_wf : State.reset.mem.wf := Memory.wf_nil

/-! ### The two views after their own updates -/

/-- Reading a register after a register write (rule R21: independently addressable). -/
theorem State.reg_setReg (s : State) (r j : Nibble) (v : Word) :
    (s.setReg r v).reg j = if j = r then v else s.reg j := by
  simp [State.setReg, State.reg, Vector.getElem_set, BitVec.toNat_inj, eq_comm]

/-- Reading a cell after a cell write (rule R42). -/
theorem State.cell_setCell (s : State) (a b : Addr) (v : Word) :
    (s.setCell a v).cell b = if b = a then v else s.cell b :=
  Memory.read_write s.mem a b v

/-- After the reset operation every register reads 0. -/
theorem State.reg_cleared (s : State) (j : Nibble) : s.cleared.reg j = 0 := by
  simp [State.reg]

/-- After the reset operation every cell reads 0. -/
theorem State.cell_cleared (s : State) (b : Addr) : s.cleared.cell b = 0 := rfl

end Sys2Proof.Machine
end

