-- ==== Sys2Proof/Laws/Exec.lean ====
section
/-!
SUPPORT. What the shared operations of the meanings and the cycle can do, said once: a jump, a reserved
sub-field, an IN, the cycle, a host operation. Later proofs cite these and do not unfold.
-/

namespace Sys2Proof.Machine

/-- No execute step faults or refuses: every instruction answers a next state (rules R100 to R151). -/
theorem exec_answers_next (i : Instr) (s : State) : ∃ t, exec i s = .next t := by
  cases i <;> first
    | exact ⟨_, rfl⟩
    | (simp only [exec, execIn]; split <;> exact ⟨_, rfl⟩)

/-- The policy is no-op, so a reserved sub-field value changes nothing (rules R69, R119, R142). -/
theorem reservedSubfield_eq (op : Nibble) (s : State) : reservedSubfield op s = .next s := rfl

/-- A jump leaves `s` or is `s` with the target as PC (rule R130). -/
theorem State.jumpIf_cases (s : State) (b : Bool) (p : Pc) :
    (b = true ∧ s.jumpIf b p = s.setPc p) ∨ (b = false ∧ s.jumpIf b p = s) := by
  cases b
  · exact .inr ⟨rfl, rfl⟩
  · exact .inl ⟨rfl, rfl⟩

@[simp] theorem State.jumpIf_true (s : State) (p : Pc) : s.jumpIf true p = s.setPc p := rfl

@[simp] theorem State.jumpIf_false (s : State) (p : Pc) : s.jumpIf false p = s := rfl

/-- IN with a value available takes it (rule R140). -/
theorem execIn_cons (r : Nibble) (s : State) (v : Word) (rest : List Word) (h : s.input = v :: rest) :
    execIn r s = .next (s.dropInput.setReg r v) := by
  simp [execIn, State.nextInput, h]

/-- IN with no value available changes nothing. -/
theorem execIn_nil (r : Nibble) (s : State) (h : s.input = []) : execIn r s = .next s := by
  simp [execIn, State.nextInput, h]

/-- When a cycle is held (rules R90, R91). -/
theorem State.waitsAt_iff (s : State) (w : Word) :
    s.waitsAt w = true ↔ opcodeOf w = 9 ∧ fieldS w = 0 ∧ s.input = [] := by
  simp [State.waitsAt, and_assoc]

/-- Everything a step with a next state can be (rule R90): the guard's stop, the wait, or the execute step of
the fetched word in the state after the fetch. -/
theorem step_cases {s t : State} (h : step s = .next t) :
    s.run = .running ∧
      ((s.pcInMemory = false ∧ t = s.stop .pcExhausted) ∨
       (s.pcInMemory = true ∧ s.waitsAt s.fetchWord = true ∧ t = s) ∨
       (s.pcInMemory = true ∧ s.waitsAt s.fetchWord = false ∧
         exec (decode s.fetchWord) s.fetch = .next t)) := by
  unfold step cycle at h
  split at h
  · simp at h
  · refine ⟨by assumption, ?_⟩
    split at h
    · split at h
      · simp_all
      · simp_all
    · simp_all

/-- Everything a host operation that needs RUN = 0 can be (rules R34, R177). -/
theorem hostAllowed_cases {b : Bool} {s s' t : State} (h : hostAllowed b s s' = .next t) :
    s.run = .halted ∧ b = true ∧ t = s' := by
  unfold hostAllowed at h
  split at h
  · simp at h
  · split at h <;> simp_all

end Sys2Proof.Machine
end

