-- ==== Sys2Proof/Laws/Frame.lean ====
section
/-!
SUPPORT. The frame of each shared update in the words claims are stated in: what it sets and that it changes
nothing else.
-/

namespace Sys2Proof.Machine

theorem SameRegs.refl (s : State) : SameRegs s s := fun _ => rfl

theorem SameCells.refl (s : State) : SameCells s s := fun _ => rfl

/-- A register write sets that register alone (rule R21). -/
theorem State.setReg_only (s : State) (r : Nibble) (v : Word) : OnlyRegBecomes r v s (s.setReg r v) := by
  refine ⟨?_, fun j hj => ?_, SameCells.refl s, ⟨rfl, rfl⟩, ⟨rfl, rfl, rfl⟩, rfl, rfl⟩
  · rw [State.reg_setReg, if_pos rfl]
  · rw [State.reg_setReg, if_neg hj]

/-- A PC write sets the PC alone (rule R130). -/
theorem State.setPc_only (s : State) (p : Pc) : OnlyPcBecomes p s (s.setPc p) :=
  ⟨rfl, rfl, SameRegs.refl s, SameCells.refl s, ⟨rfl, rfl, rfl⟩, rfl, rfl⟩

/-- An output appends one event and does nothing else (rule R143). -/
theorem State.emit_only (s : State) (v : Word) : OnlyEmits v s (s.emit v) :=
  ⟨rfl, rfl, SameRegs.refl s, SameCells.refl s, ⟨rfl, rfl⟩, rfl, rfl, rfl⟩

/-- A stop touches RUN and STOP_REASON alone (rule R166). -/
theorem State.stop_only (s : State) (c : StopReason) : OnlyStops c s.badOpcode s (s.stop c) :=
  ⟨rfl, rfl, rfl, SameRegs.refl s, SameCells.refl s, ⟨rfl, rfl⟩, rfl, rfl⟩

/-- An INVALID stop touches RUN, STOP_REASON and BAD_OPCODE alone (rule R166). -/
theorem State.stopInvalid_only (s : State) (op : Nibble) : OnlyStops .invalid op s (s.stopInvalid op) :=
  ⟨rfl, rfl, rfl, SameRegs.refl s, SameCells.refl s, ⟨rfl, rfl⟩, rfl, rfl⟩

/-- A state is itself with nothing changed. -/
theorem NothingChanges.refl (s : State) : NothingChanges s s :=
  ⟨SameRegs.refl s, SameCells.refl s, ⟨rfl, rfl⟩, ⟨rfl, rfl, rfl⟩, rfl, rfl⟩

end Sys2Proof.Machine
end

