-- ==== Sys2Proof/Laws/PerInstr.lean ====
section
/-!
SUPPORT. A statement about every instruction as syntax, one lemma per constructor: the encoder writes 0 in
every ignored bit ("An ignored field is assembled as 0", rule R72).
-/

namespace Sys2Proof.Laws.IgnoredBitsZero

/-- The word of `i` has no bit set outside the bits its row uses. -/
def Statement (i : Instr) : Prop := encode i &&& i.usedBits = encode i

/-- Where every bit is used there is nothing to show. -/
theorem of_all_used {i : Instr} (h : i.usedBits = 0xFFFF) : Statement i := by
  unfold Statement
  rw [h]
  exact BitVec.and_allOnes

theorem load (r : Nibble) (a : Addr) : Statement (.load r a) := of_all_used rfl
theorem loadImm (r : Nibble) (imm : Addr) : Statement (.loadImm r imm) := of_all_used rfl
theorem outs (r : Nibble) : Statement (.outs r) := of_all_used rfl
theorem store (r : Nibble) (a : Addr) : Statement (.store r a) := of_all_used rfl
theorem move (r s : Nibble) : Statement (.move r s) := by
  unfold Statement; revert r s; decide
theorem add (r t : Nibble) : Statement (.add r t) := of_all_used rfl
theorem sub (r t : Nibble) : Statement (.sub r t) := of_all_used rfl
theorem nop5 (s : Nibble) : Statement (.nop5 s) := by unfold Statement; revert s; decide
theorem bitAnd (r t : Nibble) : Statement (.bitAnd r t) := of_all_used rfl
theorem bitOr (r t : Nibble) : Statement (.bitOr r t) := of_all_used rfl
theorem bitXor (r t : Nibble) : Statement (.bitXor r t) := of_all_used rfl
theorem bitNot (r : Nibble) : Statement (.bitNot r) := by unfold Statement; revert r; decide
theorem nop6 (s : Nibble) : Statement (.nop6 s) := by unfold Statement; revert s; decide
theorem shl (r : Nibble) : Statement (.shl r) := by unfold Statement; revert r; decide
theorem shr (r : Nibble) : Statement (.shr r) := by unfold Statement; revert r; decide
theorem nop7 (s : Nibble) : Statement (.nop7 s) := by unfold Statement; revert s; decide
theorem jz (r t : Nibble) : Statement (.jz r t) := of_all_used rfl
theorem jmp (t : Nibble) : Statement (.jmp t) := by unfold Statement; revert t; decide
theorem nop8 (s : Nibble) : Statement (.nop8 s) := by unfold Statement; revert s; decide
theorem inp (r : Nibble) : Statement (.inp r) := by unfold Statement; revert r; decide
theorem out (r : Nibble) : Statement (.out r) := by unfold Statement; revert r; decide
theorem nop9 (s : Nibble) : Statement (.nop9 s) := by unfold Statement; revert s; decide
theorem jeq (r s t : Nibble) : Statement (.jeq r s t) := of_all_used rfl
theorem halt : Statement .halt := by unfold Statement; decide
theorem invalid0 : Statement .invalid0 := by unfold Statement; decide
theorem invalid10 : Statement .invalid10 := by unfold Statement; decide
theorem invalid13 : Statement .invalid13 := by unfold Statement; decide
theorem invalid14 : Statement .invalid14 := by unfold Statement; decide
theorem invalid15 : Statement .invalid15 := by unfold Statement; decide

end Sys2Proof.Laws.IgnoredBitsZero
end

