-- ==== Sys2Proof/Tests/Slice0.lean ====
section
/-!
SUPPORT. The model's own tests. Words and expected results are those of 95_test_vectors.md, or written out bit
by bit from the encodings of 30_encoding.md and the family files. The last part gives, for each statement
with hypotheses, a concrete case that meets them.
-/

namespace Sys2Proof.Tests

open Sys2Proof Sys2Proof.Machine

/-- The state an outcome holds, the state at reset if it holds none. -/
def after (o : Host.Outcome State Fault Refusal) : State :=
  match o with
  | .next t => t
  | .fault _ => State.reset
  | .refused _ => State.reset

/-- A running machine with the word `w` at address `a` and the PC there. -/
def at_ (a : Addr) (w : Word) : State := ((State.reset.setPc (a.setWidth 9)).setCell a w).startRun

/-- `at_ 7 w` with two registers set. -/
def with2 (w : Word) (r : Nibble) (u : Word) (q : Nibble) (v : Word) : State :=
  ((at_ 7 w).setReg r u).setReg q v

/-! ### Well-formedness: each check refuses its ill-formed term -/

theorem test_wf_refuses : (Instr.store 3 0).wf = false ∧ (Instr.nop5 1).wf = false ∧
    (Instr.nop6 3).wf = false ∧ (Instr.nop7 0).wf = false ∧ (Instr.nop8 1).wf = false ∧
    (Instr.nop9 1).wf = false := by decide

theorem test_wf_accepts : (Instr.store 3 1).wf = true ∧ (Instr.nop5 2).wf = true ∧
    (Instr.nop6 4).wf = true ∧ (Instr.nop7 15).wf = true ∧ (Instr.nop8 2).wf = true ∧
    (Instr.nop9 2).wf = true ∧ (Instr.outs 0).wf = true := by decide

/-! ### Decoding: one word per constructor, opcode, R, S, T written out as bits -/

theorem test_decode_load : decode 0b0001_0100_0100_0000 = .load 4 0x40 := by decide
theorem test_decode_loadImm : decode 0b0010_0000_1111_1111 = .loadImm 0 0xFF := by decide
theorem test_decode_outs : decode 0b0011_1111_0000_0000 = .outs 15 := by decide
theorem test_decode_store : decode 0b0011_0001_1111_1111 = .store 1 0xFF := by decide
theorem test_decode_move : decode 0b0100_0001_0010_1111 = .move 1 2 := by decide
theorem test_decode_add : decode 0b0101_0001_0000_0010 = .add 1 2 := by decide
theorem test_decode_sub : decode 0b0101_0001_0001_0011 = .sub 1 3 := by decide
theorem test_decode_nop5 : decode 0b0101_0001_0010_0011 = .nop5 2 := by decide
theorem test_decode_bitAnd : decode 0b0110_0001_0000_0010 = .bitAnd 1 2 := by decide
theorem test_decode_bitOr : decode 0b0110_0001_0001_0101 = .bitOr 1 5 := by decide
theorem test_decode_bitXor : decode 0b0110_0001_0010_0010 = .bitXor 1 2 := by decide
theorem test_decode_bitNot : decode 0b0110_0001_0011_1111 = .bitNot 1 := by decide
theorem test_decode_nop6 : decode 0b0110_0001_0100_0000 = .nop6 4 := by decide
theorem test_decode_shl : decode 0b0111_0001_0000_1111 = .shl 1 := by decide
theorem test_decode_shr : decode 0b0111_0001_0001_0000 = .shr 1 := by decide
theorem test_decode_nop7 : decode 0b0111_0001_0010_0000 = .nop7 2 := by decide
theorem test_decode_jz : decode 0b1000_0001_0000_0100 = .jz 1 4 := by decide
theorem test_decode_jmp : decode 0b1000_1111_0001_0000 = .jmp 0 := by decide
theorem test_decode_nop8 : decode 0b1000_0000_0100_0000 = .nop8 4 := by decide
theorem test_decode_inp : decode 0b1001_0010_0000_0111 = .inp 2 := by decide
theorem test_decode_out : decode 0b1001_0001_0001_1111 = .out 1 := by decide
theorem test_decode_nop9 : decode 0b1001_0001_0010_0000 = .nop9 2 := by decide
theorem test_decode_jeq : decode 0b1011_0010_0011_0101 = .jeq 2 3 5 := by decide
theorem test_decode_halt : decode 0b1100_1111_1111_1111 = .halt := by decide
theorem test_decode_invalid0 : decode 0b0000_0000_0000_0000 = .invalid0 := by decide
theorem test_decode_invalid10 : decode 0b1010_0001_0010_0011 = .invalid10 := by decide
theorem test_decode_invalid13 : decode 0b1101_0001_0010_0011 = .invalid13 := by decide
theorem test_decode_invalid14 : decode 0b1110_0000_0000_0000 = .invalid14 := by decide
theorem test_decode_invalid15 : decode 0b1111_1111_1111_1111 = .invalid15 := by decide

/-- Words of rule R72's syntax table, each field in its place. -/
theorem test_encode_words : encode (.load 4 0x40) = 0x1440 ∧ encode (.store 2 0x40) = 0x3240 ∧
    encode (.move 1 2) = 0x4120 ∧ encode (.sub 1 3) = 0x5113 ∧ encode (.bitXor 1 2) = 0x6122 ∧
    encode (.shr 1) = 0x7110 ∧ encode (.jz 1 4) = 0x8104 ∧ encode (.jmp 0) = 0x8010 ∧
    encode (.out 1) = 0x9110 ∧ encode (.jeq 2 3 5) = 0xB235 ∧ encode .halt = 0xC000 := by decide

theorem test_decodeTableWord : decodeTableWord 16 0x3240 = some (.store 2 0x40) ∧
    decodeTableWord 8 0x40 = some .invalid0 ∧ decodeTableWord 24 0 = none := by decide

/-! ### One step of each instruction (95_test_vectors.md sections 2.2 to 2.6) -/

theorem test_load : (after (step (((at_ 7 0x1120).setCell 0x20 0xC000)))).reg 1 = 0xC000 := by decide
theorem test_load_own_word : (after (step (at_ 0 0x1100))).reg 1 = 0x1100 := by decide
theorem test_loadImm_no_sign : (after (step ((at_ 7 0x2180).setReg 1 0xFFFF))).reg 1 = 0x0080 := by decide
theorem test_store_last : (after (step ((at_ 7 0x31FF).setReg 1 0x8000))).cell 0xFF = 0x8000 := by decide
theorem test_store_one : (after (step ((at_ 7 0x3101).setReg 1 0xC000))).mem =
    [(1, 0xC000), (7, 0x3101)] := by decide
theorem test_outs : (after (step ((at_ 7 0x3F00).setReg 15 0xFFFF))).output = [0xFFFF] := by decide
theorem test_outs_cell0 : (after (step ((at_ 0 0x3100).setReg 1 5))).cell 0 = 0x3100 := by decide
theorem test_move : (after (step ((at_ 7 0x412F).setReg 2 0x1234))).x[1] = 0x1234 := by decide
theorem test_add_wraps : (after (step (with2 0x5102 1 0x7FFF 2 1))).reg 1 = 0x8000 := by decide
theorem test_add_doubles : (after (step ((at_ 7 0x5101).setReg 1 0x4000))).reg 1 = 0x8000 := by decide
theorem test_sub_wraps : (after (step (with2 0x5112 1 0x7FFF 2 0x8000))).reg 1 = 0xFFFF := by decide
theorem test_sub_order : (after (step (with2 0x5112 1 5 2 7))).reg 1 = 0xFFFE := by decide
theorem test_and : (after (step (with2 0x6102 1 0x0F0F 2 0x00FF))).reg 1 = 0x000F := by decide
theorem test_or : (after (step (with2 0x6115 1 0x7F80 5 0x007F))).reg 1 = 0x7FFF := by decide
theorem test_xor : (after (step (with2 0x6122 1 0x0F0F 2 0x00FF))).reg 1 = 0x0FF0 := by decide
theorem test_not : (after (step ((at_ 7 0x6130).setReg 1 0xC000))).reg 1 = 0x3FFF := by decide
theorem test_shl_overflow : (after (step ((at_ 7 0x7100).setReg 1 0xC000))).reg 1 = 0x8000 := by decide
theorem test_shr_rounds_down : (after (step ((at_ 7 0x7110).setReg 1 0xFFFD))).reg 1 = 0xFFFE := by decide
theorem test_shr_min : (after (step ((at_ 7 0x7110).setReg 1 0x8000))).reg 1 = 0xC000 := by decide
theorem test_nop5 : after (step ((at_ 7 0x5123).setReg 1 0xAA)) =
    (((at_ 7 0x5123).setReg 1 0xAA).setIr 0x5123).setPc 8 := by decide
theorem test_nop6 : after (step ((at_ 7 0x6140).setReg 1 0xAA)) =
    (((at_ 7 0x6140).setReg 1 0xAA).setIr 0x6140).setPc 8 := by decide
theorem test_nop7 : after (step ((at_ 7 0x7120).setReg 1 0xAA)) =
    (((at_ 7 0x7120).setReg 1 0xAA).setIr 0x7120).setPc 8 := by decide
theorem test_nop8 : (after (step (at_ 7 0x8FFF))).pc = 8 := by decide
theorem test_nop9 : (after (step ((at_ 7 0x9120).deliver 1))).input = [1] := by decide
theorem test_jz_taken : (after (step (at_ 0x10 0x8104))).pc = 4 := by decide
theorem test_jz_negative : (after (step ((at_ 1 0x8105).setReg 1 0x8000))).pc = 2 := by decide
theorem test_jmp_ignores_r : (after (step (at_ 0x13 0x8F10))).pc = 0x10 := by decide
theorem test_jmp_last_address : (after (step (at_ 0xFF 0x801F))).pc = 0x1F := by decide
theorem test_jeq_taken : (after (step (((at_ 0x10 0xB235).setReg 2 7).setReg 3 7))).pc = 0x35 := by decide
theorem test_jeq_not_taken : (after (step (((at_ 0x10 0xB235).setReg 2 6).setReg 3 7))).pc = 0x11 := by
  decide
theorem test_in : (after (step (((at_ 7 0x9100).deliver 0x8000).deliver 1))).reg 1 = 0x8000 ∧
    (after (step (((at_ 7 0x9100).deliver 0x8000).deliver 1))).input = [1] := by decide
theorem test_in_holds : after (step (at_ 7 0x9100)) = at_ 7 0x9100 := by decide
theorem test_out : (after (step ((at_ 7 0x911F).setReg 1 0xFF97))).output = [0xFF97] := by decide
theorem test_halt : (after (step (at_ 4 0xC000))).runStatus = (false, 1, 0) ∧
    (after (step (at_ 4 0xC000))).pc = 5 ∧ (after (step (at_ 4 0xC000))).ir = 0xC000 := by decide
theorem test_halt_last_address : (after (step (at_ 0xFF 0xC000))).stopReason = .halt ∧
    (after (step (at_ 0xFF 0xC000))).pc = 256 := by decide
theorem test_invalid0 : (after (step (at_ 2 0x0000))).runStatus = (false, 2, 0) ∧
    (after (step (at_ 2 0x0000))).pc = 3 := by decide
theorem test_invalid10 : (after (step (at_ 2 0xA000))).runStatus = (false, 2, 10) := by decide
theorem test_invalid13 : (after (step (at_ 2 0xD123))).runStatus = (false, 2, 13) ∧
    (after (step (at_ 2 0xD123))).ir = 0xD123 := by decide
theorem test_invalid14 : (after (step (at_ 2 0xE000))).runStatus = (false, 2, 14) := by decide
theorem test_invalid15 : (after (step (at_ 0xFF 0xFFFF))).runStatus = (false, 2, 15) ∧
    (after (step (at_ 0xFF 0xFFFF))).pc = 256 := by decide

/-! ### The cycle and the host port (95_test_vectors.md section 2.7) -/

/-- T4: the host sets the PC to 256; the run stops with nothing fetched. -/
theorem test_pc_exhausted : (after (step (State.reset.setPc 256).startRun)).runStatus = (false, 3, 0) ∧
    (after (step (State.reset.setPc 256).startRun)).pc = 256 := by decide

/-- T5: a run straight after reset. -/
theorem test_run_after_reset : (after (step (after (hostOp .execute State.reset)))).runStatus =
    (false, 2, 0) ∧ (after (step (after (hostOp .execute State.reset)))).pc = 1 := by decide

/-- T9: a load is truncated at cell 255. -/
theorem test_load_truncates :
    (after (hostOp (.load [0x1111, 0x2222, 0x3333] 0xFE) State.reset)).mem =
      [(0xFE, 0x1111), (0xFF, 0x2222)] := by decide

theorem test_host_index_refused : hostOp (.setReg 16 0) State.reset = .refused .hostIndexOutOfRange ∧
    hostGetMem 256 State.reset = .error .hostIndexOutOfRange ∧
    hostGetReg 3 (at_ 0 0) = .error .hostWhileRunning := ⟨rfl, rfl, rfl⟩

/-- Writing the value an unlisted cell reads as removes the entry. -/
theorem test_write_zero_unlists : (Memory.write [(1, 7), (5, 9)] 5 0) = [(1, 7)] := by decide

/-- A planted word runs as the next step, an IN with a value supplied. -/
theorem test_withFetchWord : (after (step (State.reset.withFetchWord 16 0x20FF))).reg 0 = 0xFF ∧
    (after (step (State.reset.withFetchWord 16 0x9100))).pc = 1 := by decide

/-! ### Witnesses: for each statement with hypotheses, a case that meets them, one per clause -/

theorem witness_DecodeOfEncodeIsTheInstruction : (Instr.jeq 15 15 15).wf = true ∧
    (Instr.store 15 1).wf = true ∧ (Instr.nop6 4).wf = true := by decide
theorem witness_IgnoredBitsDoNotMatter :
    (0xC000 : Word) &&& (decode 0xC000).usedBits = 0xCFFF &&& (decode 0xC000).usedBits := by decide
theorem witness_DecodeFollowsTheOpcodeTable :
    (⟨"STORE", 0xF000, 0x3000, 2⟩ : TableRow) ∈ opcodeTable ∧
    (⟨"STORE", 0xF000, 0x3000, 2⟩ : TableRow).accepts 0x3000 = true := by decide
theorem witness_StepRunsTheDecodedInstruction : (at_ 255 0x9110).run = .running ∧
    (at_ 255 0x9110).pc.toNat < 256 ∧
    ¬(opcodeOf ((at_ 255 0x9110).cell ((at_ 255 0x9110).pc.setWidth 8)) = 9 ∧
      fieldS ((at_ 255 0x9110).cell ((at_ 255 0x9110).pc.setWidth 8)) = 0 ∧
      (at_ 255 0x9110).input = []) := by decide
theorem witness_GuardStopsWithPcExhausted : (State.reset.setPc 256).startRun.run = .running ∧
    256 ≤ (State.reset.setPc 256).startRun.pc.toNat ∧
    256 ≤ (State.reset.setPc 511).startRun.pc.toNat := by decide
theorem witness_InWithoutInputHoldsTheState : (at_ 255 0x9F0F).run = .running ∧
    (at_ 255 0x9F0F).pc.toNat < 256 ∧
    opcodeOf ((at_ 255 0x9F0F).cell ((at_ 255 0x9F0F).pc.setWidth 8)) = 9 ∧
    fieldS ((at_ 255 0x9F0F).cell ((at_ 255 0x9F0F).pc.setWidth 8)) = 0 ∧
    (at_ 255 0x9F0F).input = [] := by decide

/-- Meets the premises of OnlyTheFetchWritesIr, OutputTraceOnlyGrowsByOutputs, InputIsConsumedOnlyByIn,
OnlyStoreChangesMemory's second clause, StepKeepsTheInvariant's step and StepKeepsThePcAtMost256: a step that
answers a next state and changes IR, with no input available and a word that is no IN. -/
theorem witness_step_answers : ∃ t, step (at_ 255 0xF123) = .next t ∧
    t.ir ≠ (at_ 255 0xF123).ir ∧ (at_ 255 0xF123).pc.toNat < 256 ∧
    ¬(opcodeOf ((at_ 255 0xF123).cell ((at_ 255 0xF123).pc.setWidth 8)) = 9 ∧
      fieldS ((at_ 255 0xF123).cell ((at_ 255 0xF123).pc.setWidth 8)) = 0 ∧
      (at_ 255 0xF123).input = []) := ⟨_, rfl, by decide, by decide, by decide⟩

/-- The same premise of OnlyTheFetchWritesIr and HostValueInIrHasNoEffect met by an IN with a value. -/
theorem witness_in_with_input_fetches : ∃ t, step ((at_ 255 0x9F0F).deliver 1) = .next t ∧
    ((at_ 255 0x9F0F).deliver 1).run = .running ∧ ((at_ 255 0x9F0F).deliver 1).pc.toNat < 256 ∧
    ¬(opcodeOf (((at_ 255 0x9F0F).deliver 1).cell (((at_ 255 0x9F0F).deliver 1).pc.setWidth 8)) = 9 ∧
      fieldS (((at_ 255 0x9F0F).deliver 1).cell (((at_ 255 0x9F0F).deliver 1).pc.setWidth 8)) = 0 ∧
      ((at_ 255 0x9F0F).deliver 1).input = []) := ⟨_, rfl, by decide, by decide, by decide⟩

/-- Meets the premises of OnlyTheFetchWritesIr's first clause, OnlyTheWrittenRegisterChanges and
OnlyStoreChangesMemory's first clause. -/
theorem witness_exec_answers : ∃ t, exec (.store 1 0xFF) State.reset = .next t ∧
    regWritten (.store 1 0xFF) ≠ some 1 ∧ cellStored (.store 1 0xFF) ≠ some 0 :=
  ⟨_, rfl, by decide, by decide⟩

/-- The words of the result statements' first clauses, at a boundary value of each. -/
theorem witness_result_words_data : opcodeOf 0x1FFF = 1 ∧ opcodeOf 0x20FF = 2 ∧
    (opcodeOf 0x3F01 = 3 ∧ fieldXY 0x3F01 ≠ 0) ∧ (opcodeOf 0x3F00 = 3 ∧ fieldXY 0x3F00 = 0) ∧
    opcodeOf 0x4FFF = 4 := by decide
theorem witness_result_words_alu : (opcodeOf 0x5F0F = 5 ∧ fieldS 0x5F0F = 0) ∧
    (opcodeOf 0x5F1F = 5 ∧ fieldS 0x5F1F = 1) ∧ (opcodeOf 0x6F0F = 6 ∧ fieldS 0x6F0F = 0) ∧
    (opcodeOf 0x6F1F = 6 ∧ fieldS 0x6F1F = 1) ∧ (opcodeOf 0x6F2F = 6 ∧ fieldS 0x6F2F = 2) ∧
    (opcodeOf 0x6F3F = 6 ∧ fieldS 0x6F3F = 3) ∧ (opcodeOf 0x7F0F = 7 ∧ fieldS 0x7F0F = 0) ∧
    (opcodeOf 0x7F1F = 7 ∧ fieldS 0x7F1F = 1) := by decide
theorem witness_result_words_nop : (2 ≤ (fieldS 0x5F2F).toNat ∧ opcodeOf 0x5F2F = 5) ∧
    (2 ≤ (fieldS 0x7FFF).toNat ∧ opcodeOf 0x7FFF = 7) ∧ (2 ≤ (fieldS 0x8F2F).toNat ∧ opcodeOf 0x8F2F = 8) ∧
    (opcodeOf 0x6F4F = 6 ∧ 4 ≤ (fieldS 0x6F4F).toNat) ∧
    (opcodeOf 0x9F2F = 9 ∧ 2 ≤ (fieldS 0x9F2F).toNat) := by decide
theorem witness_result_words_control : (opcodeOf 0x8F0F = 8 ∧ fieldS 0x8F0F = 0) ∧
    (opcodeOf 0x8F1F = 8 ∧ fieldS 0x8F1F = 1) ∧ opcodeOf 0xBFFF = 11 ∧
    (opcodeOf 0x9F0F = 9 ∧ fieldS 0x9F0F = 0) ∧ (opcodeOf 0x9F1F = 9 ∧ fieldS 0x9F1F = 1) ∧
    opcodeOf 0xCFFF = 12 ∧ opcodeOf 0x0FFF = 0 ∧ opcodeOf 0xAFFF = 10 ∧ opcodeOf 0xDFFF = 13 ∧
    opcodeOf 0xEFFF = 14 ∧ opcodeOf 0xFFFF = 15 := by decide
theorem witness_WrapSixteenIsOneCorrection : ((-65536 : Int) ≤ 32768 ∧ (32768 : Int) ≤ 65535 ∧
    (32767 : Int) < 32768) ∧ ((-65536 : Int) ≤ -65536 ∧ (-65536 : Int) < -32768) ∧
    ((-32768 : Int) ≤ 32767 ∧ (32767 : Int) ≤ 32767) := by decide
theorem witness_WraparoundIsModularArithmetic :
    (-65536 : Int) ≤ 65535 ∧ (65535 : Int) ≤ 65535 := by decide
theorem witness_JzBranchesExactlyOnZero : State.reset.reg 1 = 0 ∧
    (State.reset.setReg 1 0x8000).reg 1 ≠ 0 := by decide
theorem witness_JeqBranchesExactlyOnEqual : State.reset.reg 2 = State.reset.reg 3 ∧
    (State.reset.setReg 2 0x8000).reg 2 ≠ (State.reset.setReg 2 0x8000).reg 3 := by decide
theorem witness_OnlyJumpsChangeThePcWithinReach :
    (∃ u, exec (.jz 0 15) State.reset = .next u ∧ u.pc ≠ State.reset.pc) ∧
    (∃ u, exec (.jmp 0) State.reset = .next u ∧ u.pc ≠ State.reset.pc) ∧
    ∃ u, exec (.jeq 15 15 15) State.reset = .next u ∧ u.pc ≠ State.reset.pc :=
  ⟨⟨_, rfl, by decide⟩, ⟨_, rfl, by decide⟩, ⟨_, rfl, by decide⟩⟩
theorem witness_InTakesTheNextValue :
    ((State.reset.deliver 0x8000).deliver 1).input = 0x8000 :: [1] := by decide
theorem witness_RunStopsInThreeWaysOnly :
    (∃ t, step (at_ 255 0xCFFF) = .next t ∧ t.run = .halted) ∧
    (∃ t, step (at_ 0 0x0000) = .next t ∧ t.run = .halted) ∧
    ∃ t, step (State.reset.setPc 256).startRun = .next t ∧ t.run = .halted :=
  ⟨⟨_, rfl, by decide⟩, ⟨_, rfl, by decide⟩, ⟨_, rfl, by decide⟩⟩
theorem witness_LastAddressKeepsTheStopReason : (at_ 255 0xC000).run = .running ∧
    (at_ 255 0xC000).pc = 255 ∧ opcodeOf ((at_ 255 0xC000).cell 255) = 12 ∧
    opcodeOf ((at_ 255 0xFFFF).cell 255) ∈ ([0, 10, 13, 14, 15] : List Nibble) ∧
    opcodeOf ((at_ 255 0x801F).cell 255) = 8 ∧ fieldS ((at_ 255 0x801F).cell 255) = 1 := by decide
theorem witness_UnreadRegistersDoNotMatter :
    (∀ r, Instr.add 1 2 = .inp r → State.reset.input ≠ []) ∧
    (∀ j ∈ regsRead (.add 1 2),
      (State.reset.withRegs (State.reset.setReg 15 7).x).reg j = State.reset.reg j) ∧
    (∃ t, exec (.add 1 2) State.reset = .next t) ∧
    ∃ t, exec (.add 1 2) (State.reset.withRegs (State.reset.setReg 15 7).x) = .next t :=
  ⟨fun _ h => (nomatch h), by decide, ⟨_, rfl⟩, ⟨_, rfl⟩⟩
theorem witness_UnreadRegistersDoNotMatter_in :
    (∀ r, Instr.inp 1 = .inp r → (State.reset.deliver 9).input ≠ []) ∧
    ∀ j ∈ regsRead (.inp 1),
      ((State.reset.deliver 9).withRegs (State.reset.setReg 15 7).x).reg j = State.reset.reg j :=
  ⟨fun _ _ => by decide, by decide⟩

/-- A STORE at address 254 of a HALT word into address 255, the next one to be fetched, with no input available
(as in program P5). -/
theorem witness_StoreIsSeenByTheNextFetch : ∃ t,
    ((at_ 254 0x31FF).setReg 1 0xC000).run = .running ∧ ((at_ 254 0x31FF).setReg 1 0xC000).pc.toNat < 256 ∧
    decode (((at_ 254 0x31FF).setReg 1 0xC000).cell (((at_ 254 0x31FF).setReg 1 0xC000).pc.setWidth 8)) =
      .store 1 255 ∧
    step ((at_ 254 0x31FF).setReg 1 0xC000) = .next t ∧ t.pc.toNat = (255 : Addr).toNat ∧
    ¬(opcodeOf (((at_ 254 0x31FF).setReg 1 0xC000).reg 1) = 9 ∧
      fieldS (((at_ 254 0x31FF).setReg 1 0xC000).reg 1) = 0 ∧ t.input = []) :=
  ⟨_, by decide, by decide, by decide, rfl, by decide, by decide⟩
theorem witness_CanonicalMemoriesAreEqualWhenTheyReadAlike :
    Memory.wf [(0, 1), (255, 0xFFFF)] ∧ ∀ a : Addr, Memory.read [(0, 1), (255, 0xFFFF)] a =
      Memory.read [(0, 1), (255, 0xFFFF)] a := ⟨by decide, fun _ => rfl⟩

/-- Meets the invariant's premise in StepKeepsTheInvariant, HostOperationsKeepTheInvariant and
StoppedRunIsFinalAndStaysSo: a running machine with a program cell. -/
theorem witness_running_invariant : (at_ 255 0xC000).Inv ∧ (at_ 255 0xC000).run = .running :=
  ⟨⟨by decide, by decide, by decide, by decide⟩, by decide⟩
theorem witness_StepKeepsTheInvariant : (at_ 255 0xC000).Inv ∧
    ∃ t, step (at_ 255 0xC000) = .next t :=
  ⟨witness_running_invariant.1, _, rfl⟩
theorem witness_HostOperationsKeepTheInvariant : State.reset.Inv ∧
    ∃ t, hostOp (.setMem 255 0xFFFF) State.reset = .next t :=
  ⟨⟨by decide, by decide, by decide, by decide⟩, _, rfl⟩
theorem witness_StepKeepsThePcAtMost256 : (at_ 255 0x4000).pc.toNat ≤ 256 ∧
    ∃ t, step (at_ 255 0x4000) = .next t := ⟨by decide, _, rfl⟩

/-- A run that has stopped: the second premise of StoppedRunIsFinalAndStaysSo. -/
theorem witness_StoppedRunIsFinalAndStaysSo : ((at_ 255 0xC000).runFor 1).run = .halted := by decide

/-- The state at reset is idle: the premise of the host statements; and the boundary values of their
ranges. -/
theorem witness_host_statements : State.reset.run = .halted ∧ (255 : Nat) < 256 ∧
    ([0x1111, 0x2222] : List Word)[0]? = some 0x1111 ∧ 255 + 0 < 256 ∧
    (0 : Addr).toNat < 255 ∧ State.reset.input = [] ∧ State.reset.output = [] := by decide
theorem witness_HostWritesOnlyWhileIdleAndInRange : (at_ 0 0).run = .running ∧
    (∀ v, HostOp.execute ≠ .supplyInput v) ∧ (15 : Nat) < 16 ∧ ¬(16 : Nat) < 16 ∧ (255 : Nat) < 256 ∧
    ¬(256 : Nat) < 256 ∧ (511 : Nat) < 512 ∧ ¬(512 : Nat) < 512 :=
  ⟨by decide, fun _ h => (nomatch h), by decide, by decide, by decide, by decide, by decide, by decide⟩
theorem witness_HostWritesOnlyWhileIdleAndInRange_load : State.reset.run = .halted ∧
    256 ≤ (256 : Nat) := by decide

/-- A value arrives during a run too, behind those already delivered (rules R31, R144, R191). -/
theorem test_supplyInput : (after (hostOp (.supplyInput 9) ((at_ 7 0x9100).deliver 8))).input =
    [8, 9] := by decide
theorem witness_HostReadsGiveTheItemOrRefuse : (at_ 0 0).run = .running ∧ State.reset.run = .halted ∧
    hostGetReg 15 (State.reset.setReg 15 7) = .ok 7 ∧ hostGetMem 255 (State.reset.setCell 255 9) = .ok 9 ∧
    hostGetPc (State.reset.setPc 511) = .ok 511 := ⟨by decide, by decide, rfl, rfl, rfl⟩
theorem witness_HostValueInIrHasNoEffect : (at_ 255 0xC000).run = .running ∧
    (at_ 255 0xC000).pc.toNat < 256 ∧
    ¬(opcodeOf ((at_ 255 0xC000).cell ((at_ 255 0xC000).pc.setWidth 8)) = 9 ∧
      fieldS ((at_ 255 0xC000).cell ((at_ 255 0xC000).pc.setWidth 8)) = 0 ∧
      (at_ 255 0xC000).input = []) := by decide

end Sys2Proof.Tests
end

section
/-!
SUPPORT and PROOF. A memory write in the terms of the claims, and rule R42 (20_memory.md).
-/

namespace Sys2Proof.Machine

/-! ### The memory write and the reset contents -/

theorem State.cell_setCell_same (s : State) (a : Addr) (v : Word) : (s.setCell a v).cell a = v := by
  rw [State.cell_setCell, if_pos rfl]

theorem State.setCell_sameCellsBut (s : State) (a : Addr) (v : Word) :
    SameCellsBut a s (s.setCell a v) := fun b hb => by
  rw [State.cell_setCell, if_neg hb]

/-- The cell write of rule R42 with its frame; STORE and the host's memory write are this one update. -/
theorem State.setCell_onlyCellBecomes (s : State) (a : Addr) (v : Word) :
    OnlyCellBecomes a v s (s.setCell a v) := by
  refine ⟨s.cell_setCell_same a v, s.setCell_sameCellsBut a v, ?regs, ?pcIr, ?runControl, ?streams⟩
  case regs => exact s.setCell_reg a v
  case pcIr => exact ⟨s.setCell_pc a v, s.setCell_ir a v⟩
  case runControl => exact ⟨s.setCell_run a v, s.setCell_stopReason a v, s.setCell_badOpcode a v⟩
  case streams => exact ⟨s.setCell_input a v, s.setCell_output a v⟩

theorem State.cell_reset (a : Addr) : State.reset.cell a = 0 := Memory.read_nil a

/-- Settles O43: the write law on every memory list, and an empty list at reset and after the reset
operation. -/
theorem cellReadsTheLatestWrite : Obligations.CellReadsTheLatestWrite :=
  ⟨State.setCell_onlyCellBecomes, State.cell_reset, State.cell_cleared⟩

end Sys2Proof.Machine
end

section
/-!
SUPPORT and PROOF. The fields of a word as numbers: its nibbles by division and remainder, and XY as the
number `16*S + T` (30_encoding.md rules R61, R62).
-/

namespace Sys2Proof

/-! ### Each field as a number -/

/-- The top field needs no remainder: a word is below `16 * 4096`. -/
theorem opcodeOf_toNat (w : Word) : (opcodeOf w).toNat = w.toNat / 4096 := by
  have quotient_lt : w.toNat / 4096 < 16 := Nat.div_lt_of_lt_mul w.isLt
  rw [opcodeOf, BitVec.extractLsb'_toNat, Nat.shiftRight_eq_div_pow, Nat.mod_eq_of_lt quotient_lt]

theorem fieldR_toNat (w : Word) : (fieldR w).toNat = w.toNat / 256 % 16 := by
  rw [fieldR, BitVec.extractLsb'_toNat, Nat.shiftRight_eq_div_pow]

theorem fieldS_toNat (w : Word) : (fieldS w).toNat = w.toNat / 16 % 16 := by
  rw [fieldS, BitVec.extractLsb'_toNat, Nat.shiftRight_eq_div_pow]

theorem fieldT_toNat (w : Word) : (fieldT w).toNat = w.toNat % 16 := by
  rw [fieldT, BitVec.extractLsb'_toNat, Nat.shiftRight_zero]

theorem fieldXY_toNat (w : Word) : (fieldXY w).toNat = w.toNat % 256 := by
  rw [fieldXY, BitVec.extractLsb'_toNat, Nat.shiftRight_zero]

/-! ### Two nibbles in a row -/

/-- The number of two concatenated nibbles: the low one does not carry into the high one. -/
theorem toNat_append_nibbles (s t : Nibble) : (s ++ t).toNat = 16 * s.toNat + t.toNat := by
  rw [BitVec.toNat_append, ← Nat.shiftLeft_add_eq_or_of_lt t.isLt, Nat.shiftLeft_eq, Nat.mul_comm]

theorem fieldXY_toNat_eq_fieldS_fieldT (w : Word) :
    (fieldXY w).toNat = 16 * (fieldS w).toNat + (fieldT w).toNat := by
  rw [fieldXY_eq, toNat_append_nibbles]

/-- Settles O1: one equation per field, and XY once more as the concatenation of S and T. -/
theorem fieldsAreTheNibblesOfTheWord : Obligations.FieldsAreTheNibblesOfTheWord := fun w =>
  ⟨opcodeOf_toNat w, fieldR_toNat w, fieldS_toNat w, fieldT_toNat w, fieldXY_toNat w,
    fieldXY_toNat_eq_fieldS_fieldT w⟩

end Sys2Proof
end

section
/-!
SUPPORT and PROOF. Data movement: the rows of opcodes 1 to 4 in the decoder (30_encoding.md rules R66, R67),
the data immediate as a number (rule R65), and LOAD, LOAD_IMM, STORE and MOVE with their frames
(41_data_movement.md rules R100, R101, R102, R104).
-/

namespace Sys2Proof

/-! ### The decoder on opcodes 1 to 4 -/

theorem decode_of_opcode_one {w : Word} (h : opcodeOf w = 1) :
    decode w = .load (fieldR w) (fieldXY w) := by
  simp [decode, h]

theorem decode_of_opcode_two {w : Word} (h : opcodeOf w = 2) :
    decode w = .loadImm (fieldR w) (fieldXY w) := by
  simp [decode, h]

theorem decode_of_opcode_three {w : Word} (h : opcodeOf w = 3) : decode w = decodeOp3 w := by
  simp [decode, h]

theorem decode_of_opcode_four {w : Word} (h : opcodeOf w = 4) :
    decode w = .move (fieldR w) (fieldS w) := by
  simp [decode, h]

/-- XY = 0 is the word of OUTS, every other XY is an address (rule R67). -/
theorem decodeOp3_of_xy_ne_zero {w : Word} (hxy : fieldXY w ≠ 0) :
    decodeOp3 w = .store (fieldR w) (fieldXY w) :=
  if_neg hxy

end Sys2Proof

namespace Sys2Proof.Machine

/-! ### The data immediate -/

theorem immData_eq_ofNat (imm : Addr) : immData imm = BitVec.ofNat 16 imm.toNat :=
  (BitVec.ofNat_toNat 16 imm).symm

theorem immData_toNat (imm : Addr) : (immData imm).toNat = imm.toNat :=
  BitVec.toNat_setWidth_of_le (by decide)

/-- A zero-extended byte is below `2^15`, so bit 15 is clear and the signed reading is the byte too. -/
theorem immData_toInt (imm : Addr) : (immData imm).toInt = imm.toNat := by
  have double_lt : 2 * (immData imm).toNat < 2 ^ 16 := by
    have byte_lt := imm.isLt
    rw [immData_toNat]
    omega
  rw [BitVec.toInt_eq_toNat_of_lt double_lt, immData_toNat]

/-! ### The execute step as one update of the state -/

theorem exec_load (r : Nibble) (a : Addr) (s : State) :
    exec (.load r a) s = .next (s.setReg r (s.cell a)) := rfl

theorem exec_loadImm (r : Nibble) (imm : Addr) (s : State) :
    exec (.loadImm r imm) s = .next (s.setReg r (immData imm)) := rfl

theorem exec_store (r : Nibble) (a : Addr) (s : State) :
    exec (.store r a) s = .next (s.setCell a (s.reg r)) := rfl

theorem exec_move (r q : Nibble) (s : State) :
    exec (.move r q) s = .next (s.setReg r (s.reg q)) := rfl

theorem State.reg_setReg_same (s : State) (r : Nibble) (v : Word) : (s.setReg r v).reg r = v := by
  rw [State.reg_setReg, if_pos rfl]

/-! ### The obligations -/

/-- Settles O12: LOAD is one register write of the cell's pattern. -/
theorem loadCopiesTheCell : Obligations.LoadCopiesTheCell :=
  ⟨fun _ => decode_of_opcode_one, fun r a s => ⟨_, exec_load r a s, s.setReg_only r (s.cell a)⟩⟩

/-- Settles O13: LOAD_IMM is one register write of the data immediate, whose two readings agree. -/
theorem loadImmZeroExtends : Obligations.LoadImmZeroExtends := by
  refine ⟨fun _ => decode_of_opcode_two, fun r imm s => ⟨_, exec_loadImm r imm s, ?frame, ?unsigned, ?signed⟩⟩
  case frame => exact immData_eq_ofNat imm ▸ s.setReg_only r (immData imm)
  case unsigned => rw [State.reg_setReg_same, immData_toNat]
  case signed => rw [State.reg_setReg_same, immData_toInt]

/-- Settles O14: STORE is the one cell write of rule R42, with the register's pattern. -/
theorem storeWritesItsCellOnly : Obligations.StoreWritesItsCellOnly :=
  ⟨fun _ hop hxy => (decode_of_opcode_three hop).trans (decodeOp3_of_xy_ne_zero hxy),
    fun r a s => ⟨_, exec_store r a s, s.setCell_onlyCellBecomes a (s.reg r)⟩⟩

/-- Settles O16: MOVE is one register write of the source register's pattern. -/
theorem moveCopiesTheRegister : Obligations.MoveCopiesTheRegister :=
  ⟨fun _ => decode_of_opcode_four, fun r q s => ⟨_, exec_move r q s, s.setReg_only r (s.reg q)⟩⟩

end Sys2Proof.Machine
end

section
/-!
SUPPORT and PROOF. The ALU: rows of opcodes 5 to 8 in the decoder (30_encoding.md rule R67), the wraparound law
(42_alu.md rule R110), what add, subtract and the bitwise operations do to patterns, and ADD, SUB, AND, OR, XOR,
NOT, NOP5, NOP7 and NOP8 with their frames (rules R112 to R118, R122; 43_control_transfer.md rule R133).
-/

namespace Sys2Proof

/-! ### The decoder on opcodes 5 to 8 -/

theorem decode_of_opcode_five {w : Word} (h : opcodeOf w = 5) : decode w = decodeOp5 w := by
  simp [decode, h]

theorem decode_of_opcode_six {w : Word} (h : opcodeOf w = 6) : decode w = decodeOp6 w := by
  simp [decode, h]

theorem decode_of_opcode_seven {w : Word} (h : opcodeOf w = 7) : decode w = decodeOp7 w := by
  simp [decode, h]

theorem decode_of_opcode_eight {w : Word} (h : opcodeOf w = 8) : decode w = decodeOp8 w := by
  simp [decode, h]

theorem decodeOp5_of_s_zero {w : Word} (hs : fieldS w = 0) :
    decodeOp5 w = .add (fieldR w) (fieldT w) :=
  if_pos hs

theorem decodeOp5_of_s_one {w : Word} (hs : fieldS w = 1) :
    decodeOp5 w = .sub (fieldR w) (fieldT w) := by
  simp [decodeOp5, hs]

theorem decodeOp6_of_s_zero {w : Word} (hs : fieldS w = 0) :
    decodeOp6 w = .bitAnd (fieldR w) (fieldT w) :=
  if_pos hs

theorem decodeOp6_of_s_one {w : Word} (hs : fieldS w = 1) :
    decodeOp6 w = .bitOr (fieldR w) (fieldT w) := by
  simp [decodeOp6, hs]

theorem decodeOp6_of_s_two {w : Word} (hs : fieldS w = 2) :
    decodeOp6 w = .bitXor (fieldR w) (fieldT w) := by
  simp [decodeOp6, hs]

theorem decodeOp6_of_s_three {w : Word} (hs : fieldS w = 3) :
    decodeOp6 w = .bitNot (fieldR w) := by
  simp [decodeOp6, hs]

/-- A reserved selector is neither of the two that name an instruction of opcodes 5, 7 and 8. -/
theorem nibble_ne_zero_and_ne_one {q : Nibble} (hq : 2 ≤ q.toNat) : q ≠ 0 ∧ q ≠ 1 := by
  constructor <;> (rintro rfl; revert hq; decide)

theorem decodeOp5_of_two_le_s {w : Word} (hs : 2 ≤ (fieldS w).toNat) :
    decodeOp5 w = .nop5 (fieldS w) := by
  obtain ⟨ne_zero, ne_one⟩ := nibble_ne_zero_and_ne_one hs
  rw [decodeOp5, if_neg ne_zero, if_neg ne_one]

theorem decodeOp7_of_two_le_s {w : Word} (hs : 2 ≤ (fieldS w).toNat) :
    decodeOp7 w = .nop7 (fieldS w) := by
  obtain ⟨ne_zero, ne_one⟩ := nibble_ne_zero_and_ne_one hs
  rw [decodeOp7, if_neg ne_zero, if_neg ne_one]

theorem decodeOp8_of_two_le_s {w : Word} (hs : 2 ≤ (fieldS w).toNat) :
    decodeOp8 w = .nop8 (fieldS w) := by
  obtain ⟨ne_zero, ne_one⟩ := nibble_ne_zero_and_ne_one hs
  rw [decodeOp8, if_neg ne_zero, if_neg ne_one]

end Sys2Proof

namespace Sys2Proof.Machine

/-! ### wrap16 -/

theorem wrap16_of_gt {n : Int} (h : 32767 < n) : wrap16 n = n - 65536 := if_pos h

theorem wrap16_of_lt {n : Int} (h : n < -32768) : wrap16 n = n + 65536 := by
  rw [wrap16, if_neg (by omega), if_pos h]

theorem wrap16_of_in_range {n : Int} (hlo : -32768 ≤ n) (hhi : n ≤ 32767) : wrap16 n = n := by
  rw [wrap16, if_neg (by omega), if_neg (by omega)]

/-- One correction suffices: the three ranges of R110 are each moved into the signed 16-bit range. -/
theorem wrap16_mem_range {n : Int} (hlo : -65536 ≤ n) (hhi : n ≤ 65535) :
    -32768 ≤ wrap16 n ∧ wrap16 n ≤ 32767 := by
  by_cases above : 32767 < n
  · rw [wrap16_of_gt above]; omega
  by_cases below : n < -32768
  · rw [wrap16_of_lt below]; omega
  · rw [wrap16_of_in_range (by omega) (by omega)]; omega

theorem word_toInt_bounds (a : Word) : -32768 ≤ a.toInt ∧ a.toInt ≤ 32767 :=
  ⟨a.le_toInt, Int.le_of_lt_add_one a.toInt_lt⟩

theorem exact_sum_bounds (a b : Word) :
    -65536 ≤ a.toInt + b.toInt ∧ a.toInt + b.toInt ≤ 65534 := by
  have := word_toInt_bounds a
  have := word_toInt_bounds b
  omega

/-- The range of the exact difference, 65535 included (90_conflicts.md C4). -/
theorem exact_difference_bounds (a b : Word) :
    -65535 ≤ a.toInt - b.toInt ∧ a.toInt - b.toInt ≤ 65535 := by
  have := word_toInt_bounds a
  have := word_toInt_bounds b
  omega

/-- A wrapped result fits the 16-bit pattern it is stored in. -/
theorem toInt_ofInt_wrap16 {n : Int} (hlo : -65536 ≤ n) (hhi : n ≤ 65535) :
    (BitVec.ofInt 16 (wrap16 n)).toInt = wrap16 n := by
  obtain ⟨wlo, whi⟩ := wrap16_mem_range hlo hhi
  exact BitVec.toInt_ofInt_eq_self (by decide) wlo (Int.lt_add_one_of_le whi)

/-! ### The operations of the ALU on patterns -/

theorem aluAdd_toInt (a b : Word) : (aluAdd a b).toInt = wrap16 (a.toInt + b.toInt) := by
  obtain ⟨hlo, hhi⟩ := exact_sum_bounds a b
  exact toInt_ofInt_wrap16 hlo (by omega)

theorem aluSub_toInt (a b : Word) : (aluSub a b).toInt = wrap16 (a.toInt - b.toInt) := by
  obtain ⟨hlo, hhi⟩ := exact_difference_bounds a b
  exact toInt_ofInt_wrap16 (by omega) hhi

theorem aluAnd_getLsbD (a b : Word) (k : Nat) :
    (aluAnd a b).getLsbD k = (a.getLsbD k && b.getLsbD k) := BitVec.getLsbD_and

theorem aluOr_getLsbD (a b : Word) (k : Nat) :
    (aluOr a b).getLsbD k = (a.getLsbD k || b.getLsbD k) := BitVec.getLsbD_or

theorem aluXor_getLsbD (a b : Word) (k : Nat) :
    (aluXor a b).getLsbD k = xor (a.getLsbD k) (b.getLsbD k) := BitVec.getLsbD_xor

theorem aluNot_getLsbD (a : Word) {k : Nat} (hk : k < 16) :
    (aluNot a).getLsbD k = !a.getLsbD k := by
  rw [aluNot, BitVec.getLsbD_not, decide_eq_true hk, Bool.true_and]

theorem aluNot_toNat (a : Word) : (aluNot a).toNat = 65535 - a.toNat := BitVec.toNat_not

/-- The complement has the other sign, so exactly one of the two readings is corrected by `2^16`. -/
theorem aluNot_toInt (a : Word) : (aluNot a).toInt = -a.toInt - 1 := by
  have word_lt := a.isLt
  rw [BitVec.toInt_eq_toNat_cond, BitVec.toInt_eq_toNat_cond, aluNot_toNat]
  split <;> split <;> omega

/-! ### The execute step as one update of the state -/

theorem exec_add (r t : Nibble) (s : State) :
    exec (.add r t) s = .next (s.setReg r (aluAdd (s.reg r) (s.reg t))) := rfl

theorem exec_sub (r t : Nibble) (s : State) :
    exec (.sub r t) s = .next (s.setReg r (aluSub (s.reg r) (s.reg t))) := rfl

theorem exec_bitAnd (r t : Nibble) (s : State) :
    exec (.bitAnd r t) s = .next (s.setReg r (aluAnd (s.reg r) (s.reg t))) := rfl

theorem exec_bitOr (r t : Nibble) (s : State) :
    exec (.bitOr r t) s = .next (s.setReg r (aluOr (s.reg r) (s.reg t))) := rfl

theorem exec_bitXor (r t : Nibble) (s : State) :
    exec (.bitXor r t) s = .next (s.setReg r (aluXor (s.reg r) (s.reg t))) := rfl

theorem exec_bitNot (r : Nibble) (s : State) :
    exec (.bitNot r) s = .next (s.setReg r (aluNot (s.reg r))) := rfl

theorem exec_nop5 (q : Nibble) (s : State) : exec (.nop5 q) s = .next s := rfl

theorem exec_nop7 (q : Nibble) (s : State) : exec (.nop7 q) s = .next s := rfl

theorem exec_nop8 (q : Nibble) (s : State) : exec (.nop8 q) s = .next s := rfl

/-- The frame of a register write, the new value named by reading the register back. -/
theorem State.setReg_onlyItsRegister (s : State) (r : Nibble) (v : Word) :
    OnlyRegBecomes r ((s.setReg r v).reg r) s (s.setReg r v) :=
  (s.reg_setReg_same r v).symm ▸ s.setReg_only r v

/-! ### The obligations -/

/-- Settles O17: one equation of wrap16 per range, and the ranges of the exact results. -/
theorem wrapSixteenIsOneCorrection : Obligations.WrapSixteenIsOneCorrection := by
  refine ⟨fun n hlo hhi => ?correction, fun a b => ?bounds, ?overflow, ?underflow⟩
  case correction =>
    exact ⟨wrap16_of_gt, wrap16_of_lt, wrap16_of_in_range, wrap16_mem_range hlo hhi⟩
  case bounds =>
    obtain ⟨sumLo, sumHi⟩ := exact_sum_bounds a b
    exact ⟨sumLo, sumHi, exact_difference_bounds a b⟩
  case overflow => exact wrap16_of_gt (by decide)
  case underflow => exact wrap16_of_lt (by decide)

/-- Settles O19: ADD is one register write, whose value reads as the wrapped exact sum. -/
theorem addWrapsTheExactSum : Obligations.AddWrapsTheExactSum := by
  refine ⟨fun w hop hs => (decode_of_opcode_five hop).trans (decodeOp5_of_s_zero hs), fun r t s =>
    ⟨_, exec_add r t s, s.setReg_onlyItsRegister r _, ?signed⟩⟩
  case signed => rw [State.reg_setReg_same, aluAdd_toInt]

/-- Settles O20: SUB is one register write, whose value reads as the wrapped exact difference. -/
theorem subWrapsTheExactDifference : Obligations.SubWrapsTheExactDifference := by
  refine ⟨fun w hop hs => (decode_of_opcode_five hop).trans (decodeOp5_of_s_one hs), fun r t s =>
    ⟨_, exec_sub r t s, s.setReg_onlyItsRegister r _, ?signed⟩⟩
  case signed => rw [State.reg_setReg_same, aluSub_toInt]

/-- Settles O22: NOT is one register write of the complement, whose bits and signed value are known. -/
theorem notInvertsEveryBit : Obligations.NotInvertsEveryBit := by
  refine ⟨fun w hop hs => (decode_of_opcode_six hop).trans (decodeOp6_of_s_three hs), fun r s =>
    ⟨_, exec_bitNot r s, s.setReg_onlyItsRegister r _, fun k hk => ?bit, ?signed⟩⟩
  case bit => rw [State.reg_setReg_same, aluNot_getLsbD _ hk]
  case signed => rw [State.reg_setReg_same, aluNot_toInt]

/-- Settles O21: each of AND, OR and XOR is one register write, whose bits are known. -/
theorem andOrXorActBitByBit : Obligations.AndOrXorActBitByBit := by
  refine ⟨fun w hop => ?rows, fun r t s =>
    ⟨⟨_, exec_bitAnd r t s, s.setReg_onlyItsRegister r _, fun k _ => ?andBit⟩,
      ⟨_, exec_bitOr r t s, s.setReg_onlyItsRegister r _, fun k _ => ?orBit⟩,
      ⟨_, exec_bitXor r t s, s.setReg_onlyItsRegister r _, fun k _ => ?xorBit⟩⟩⟩
  case rows =>
    rw [decode_of_opcode_six hop]
    exact ⟨decodeOp6_of_s_zero, decodeOp6_of_s_one, decodeOp6_of_s_two⟩
  case andBit => rw [State.reg_setReg_same, aluAnd_getLsbD]
  case orBit => rw [State.reg_setReg_same, aluOr_getLsbD]
  case xorBit => rw [State.reg_setReg_same, aluXor_getLsbD]

/-- Settles O25: with S of 2 or more no other row is selected, and the execute step answers the same state. -/
theorem reservedSubfieldsFiveSevenEightDoNothing :
    Obligations.ReservedSubfieldsFiveSevenEightDoNothing := by
  refine ⟨fun w hs => ⟨fun hop => ?five, fun hop => ?seven, fun hop => ?eight⟩, fun q s =>
    ⟨⟨s, exec_nop5 q s, .refl s⟩, ⟨s, exec_nop7 q s, .refl s⟩, ⟨s, exec_nop8 q s, .refl s⟩⟩⟩
  case five => rw [decode_of_opcode_five hop, decodeOp5_of_two_le_s hs]
  case seven => rw [decode_of_opcode_seven hop, decodeOp7_of_two_le_s hs]
  case eight => rw [decode_of_opcode_eight hop, decodeOp8_of_two_le_s hs]

end Sys2Proof.Machine
end

section
/-!
SUPPORT and PROOF. Control transfer: the rows of opcodes 8 and 11 in the decoder (30_encoding.md rules R66,
R67), the jump targets as numbers (rule R65), the two tests, and JZ, JMP and JEQ with their frames
(43_control_transfer.md rules R130, R131, R132, R134).
-/

namespace Sys2Proof

/-! ### The decoder on opcodes 8 and 11 -/

theorem decodeOp8_of_s_zero {w : Word} (hs : fieldS w = 0) :
    decodeOp8 w = .jz (fieldR w) (fieldT w) :=
  if_pos hs

theorem decodeOp8_of_s_one {w : Word} (hs : fieldS w = 1) : decodeOp8 w = .jmp (fieldT w) := by
  simp [decodeOp8, hs]

theorem decode_of_opcode_eleven {w : Word} (h : opcodeOf w = 11) :
    decode w = .jeq (fieldR w) (fieldS w) (fieldT w) := by
  simp [decode, h]

theorem fieldXY_toNat_of_s_zero {w : Word} (hs : fieldS w = 0) :
    (fieldXY w).toNat = (fieldT w).toNat := by
  simp [fieldXY_toNat_eq_fieldS_fieldT, hs]

theorem fieldXY_toNat_of_s_one {w : Word} (hs : fieldS w = 1) :
    (fieldXY w).toNat = 16 + (fieldT w).toNat := by
  simp [fieldXY_toNat_eq_fieldS_fieldT, hs]

end Sys2Proof

namespace Sys2Proof.Machine

/-! ### The jump targets -/

theorem targetJeq_eq_ofNat (q t : Nibble) :
    targetJeq q t = BitVec.ofNat 9 (16 * q.toNat + t.toNat) := by
  rw [← toNat_append_nibbles, BitVec.ofNat_toNat, targetJeq, jumpTarget, xyOf]

/-- The target of JZ is that of a JEQ with S = 0. -/
theorem targetJz_eq_ofNat (t : Nibble) : targetJz t = BitVec.ofNat 9 t.toNat := by
  rw [← Nat.zero_add t.toNat]
  exact targetJeq_eq_ofNat 0 t

/-- The target of JMP is that of a JEQ with S = 1. -/
theorem targetJmp_eq_ofNat (t : Nibble) : targetJmp t = BitVec.ofNat 9 (16 + t.toNat) :=
  targetJeq_eq_ofNat 1 t

/-! ### The tests -/

theorem State.regIsZero_iff (s : State) (r : Nibble) : s.regIsZero r = true ↔ s.reg r = 0 :=
  beq_iff_eq

theorem State.regsEqual_iff (s : State) (r q : Nibble) : s.regsEqual r q = true ↔ s.reg r = s.reg q :=
  beq_iff_eq

/-! ### The frame of a jump -/

theorem State.jumpIf_onlyPcBecomes (s : State) {taken : Bool} (h : taken = true) (p : Pc) :
    OnlyPcBecomes p s (s.jumpIf taken p) := by
  rw [h, State.jumpIf_true]
  exact s.setPc_only p

theorem State.jumpIf_nothingChanges (s : State) {taken : Bool} (h : ¬ taken = true) (p : Pc) :
    NothingChanges s (s.jumpIf taken p) := by
  rw [Bool.eq_false_of_not_eq_true h, State.jumpIf_false]
  exact .refl s

/-! ### The execute step as one jump -/

theorem exec_jz (r t : Nibble) (s : State) :
    exec (.jz r t) s = .next (s.jumpIf (s.regIsZero r) (targetJz t)) := rfl

theorem exec_jmp (t : Nibble) (s : State) :
    exec (.jmp t) s = .next (s.setPc (targetJmp t)) := rfl

theorem exec_jeq (r q t : Nibble) (s : State) :
    exec (.jeq r q t) s = .next (s.jumpIf (s.regsEqual r q) (targetJeq q t)) := rfl

/-! ### The obligations -/

/-- Settles O27: JZ is one jump on the test for 0, whose target is T. -/
theorem jzBranchesExactlyOnZero : Obligations.JzBranchesExactlyOnZero := by
  refine ⟨fun w hop hs => ⟨?row, fieldXY_toNat_of_s_zero hs⟩, fun r t s =>
    ⟨_, exec_jz r t s, fun zero => ?taken, fun nonzero => ?notTaken⟩⟩
  case row => exact (decode_of_opcode_eight hop).trans (decodeOp8_of_s_zero hs)
  case taken =>
    exact targetJz_eq_ofNat t ▸ s.jumpIf_onlyPcBecomes ((s.regIsZero_iff r).mpr zero) (targetJz t)
  case notTaken => exact s.jumpIf_nothingChanges (mt (s.regIsZero_iff r).mp nonzero) _

/-- Settles O28: JMP is one PC write of 16 + T. -/
theorem jmpAlwaysSetsThePc : Obligations.JmpAlwaysSetsThePc := by
  refine ⟨fun w hop hs => ⟨?row, fieldXY_toNat_of_s_one hs⟩, fun t s => ⟨_, exec_jmp t s, ?frame⟩⟩
  case row => exact (decode_of_opcode_eight hop).trans (decodeOp8_of_s_one hs)
  case frame => exact targetJmp_eq_ofNat t ▸ s.setPc_only (targetJmp t)

/-- Settles O29: JEQ is one jump on the equality of two patterns, whose target is 16*S + T. -/
theorem jeqBranchesExactlyOnEqual : Obligations.JeqBranchesExactlyOnEqual := by
  refine ⟨fun w hop => ⟨decode_of_opcode_eleven hop, fieldXY_toNat_eq_fieldS_fieldT w⟩, fun r q t s =>
    ⟨_, exec_jeq r q t s, fun equal => ?taken, fun different => ?notTaken⟩⟩
  case taken =>
    exact targetJeq_eq_ofNat q t ▸ s.jumpIf_onlyPcBecomes ((s.regsEqual_iff r q).mpr equal) (targetJeq q t)
  case notTaken => exact s.jumpIf_nothingChanges (mt (s.regsEqual_iff r q).mp different) _

end Sys2Proof.Machine
end

section
/-!
SUPPORT and PROOF. Input and output: the row of OUT in the decoder (30_encoding.md rules R66, R67) and OUT
with its frame (44_io.md rule R141).
-/

namespace Sys2Proof

/-! ### The decoder on opcode 9 -/

theorem decode_of_opcode_nine {w : Word} (h : opcodeOf w = 9) : decode w = decodeOp9 w := by
  simp [decode, h]

theorem decodeOp9_of_s_one {w : Word} (hs : fieldS w = 1) : decodeOp9 w = .out (fieldR w) := by
  simp [decodeOp9, hs]

end Sys2Proof

namespace Sys2Proof.Machine

/-! ### The execute step as one output event -/

theorem exec_out (r : Nibble) (s : State) : exec (.out r) s = .next (s.emit (s.reg r)) := rfl

/-! ### The obligation -/

/-- Settles O32: OUT is one output event, which carries the pattern of its register. -/
theorem outEmitsTheRegister : Obligations.OutEmitsTheRegister :=
  ⟨fun _ hop hs => (decode_of_opcode_nine hop).trans (decodeOp9_of_s_one hs),
    fun r s => ⟨_, exec_out r s, s.emit_only (s.reg r)⟩⟩

end Sys2Proof.Machine
end

section
/-!
SUPPORT. The opcode map of 30_encoding.md rules R66 and R67 as a relation between words and instructions, one
constructor per row, and that it is the decoder. A proof about every word splits on it; a proof about the
words of one row takes one constructor.
-/

namespace Sys2Proof

/-! ### The rows the decoder can select -/

/-- `OpcodeMap w i`: rules R66 and R67 give the word `w` the row of `i`. -/
inductive OpcodeMap (w : Word) : Instr → Prop
  | load (op : opcodeOf w = 1) : OpcodeMap w (.load (fieldR w) (fieldXY w))
  | loadImm (op : opcodeOf w = 2) : OpcodeMap w (.loadImm (fieldR w) (fieldXY w))
  | outs (op : opcodeOf w = 3) (xy : fieldXY w = 0) : OpcodeMap w (.outs (fieldR w))
  | store (op : opcodeOf w = 3) (xy : fieldXY w ≠ 0) : OpcodeMap w (.store (fieldR w) (fieldXY w))
  | move (op : opcodeOf w = 4) : OpcodeMap w (.move (fieldR w) (fieldS w))
  | add (op : opcodeOf w = 5) (sel : fieldS w = 0) : OpcodeMap w (.add (fieldR w) (fieldT w))
  | sub (op : opcodeOf w = 5) (sel : fieldS w = 1) : OpcodeMap w (.sub (fieldR w) (fieldT w))
  | nop5 (op : opcodeOf w = 5) (sel : 2 ≤ (fieldS w).toNat) : OpcodeMap w (.nop5 (fieldS w))
  | bitAnd (op : opcodeOf w = 6) (sel : fieldS w = 0) : OpcodeMap w (.bitAnd (fieldR w) (fieldT w))
  | bitOr (op : opcodeOf w = 6) (sel : fieldS w = 1) : OpcodeMap w (.bitOr (fieldR w) (fieldT w))
  | bitXor (op : opcodeOf w = 6) (sel : fieldS w = 2) : OpcodeMap w (.bitXor (fieldR w) (fieldT w))
  | bitNot (op : opcodeOf w = 6) (sel : fieldS w = 3) : OpcodeMap w (.bitNot (fieldR w))
  | nop6 (op : opcodeOf w = 6) (sel : 4 ≤ (fieldS w).toNat) : OpcodeMap w (.nop6 (fieldS w))
  | shl (op : opcodeOf w = 7) (sel : fieldS w = 0) : OpcodeMap w (.shl (fieldR w))
  | shr (op : opcodeOf w = 7) (sel : fieldS w = 1) : OpcodeMap w (.shr (fieldR w))
  | nop7 (op : opcodeOf w = 7) (sel : 2 ≤ (fieldS w).toNat) : OpcodeMap w (.nop7 (fieldS w))
  | jz (op : opcodeOf w = 8) (sel : fieldS w = 0) : OpcodeMap w (.jz (fieldR w) (fieldT w))
  | jmp (op : opcodeOf w = 8) (sel : fieldS w = 1) : OpcodeMap w (.jmp (fieldT w))
  | nop8 (op : opcodeOf w = 8) (sel : 2 ≤ (fieldS w).toNat) : OpcodeMap w (.nop8 (fieldS w))
  | inp (op : opcodeOf w = 9) (sel : fieldS w = 0) : OpcodeMap w (.inp (fieldR w))
  | out (op : opcodeOf w = 9) (sel : fieldS w = 1) : OpcodeMap w (.out (fieldR w))
  | nop9 (op : opcodeOf w = 9) (sel : 2 ≤ (fieldS w).toNat) : OpcodeMap w (.nop9 (fieldS w))
  | jeq (op : opcodeOf w = 11) : OpcodeMap w (.jeq (fieldR w) (fieldS w) (fieldT w))
  | halt (op : opcodeOf w = 12) : OpcodeMap w .halt
  | invalid0 (op : opcodeOf w = 0) : OpcodeMap w .invalid0
  | invalid10 (op : opcodeOf w = 10) : OpcodeMap w .invalid10
  | invalid13 (op : opcodeOf w = 13) : OpcodeMap w .invalid13
  | invalid14 (op : opcodeOf w = 14) : OpcodeMap w .invalid14
  | invalid15 (op : opcodeOf w = 15) : OpcodeMap w .invalid15

/-! ### Selectors -/

theorem opcode_cases (q : Nibble) : q = 0 ∨ q = 1 ∨ q = 2 ∨ q = 3 ∨ q = 4 ∨ q = 5 ∨ q = 6 ∨ q = 7 ∨
    q = 8 ∨ q = 9 ∨ q = 10 ∨ q = 11 ∨ q = 12 ∨ q = 13 ∨ q = 14 ∨ q = 15 := by
  revert q; decide

/-- The selectors of opcodes 5, 7, 8 and 9. -/
theorem selector_cases (q : Nibble) : q = 0 ∨ q = 1 ∨ 2 ≤ q.toNat := by
  revert q; decide

/-- The selectors of opcode 6. -/
theorem selector6_cases (q : Nibble) : q = 0 ∨ q = 1 ∨ q = 2 ∨ q = 3 ∨ 4 ≤ q.toNat := by
  revert q; decide

/-- A reserved selector of opcode 6 is none of the four that name an instruction. -/
theorem nibble_ne_of_four_le {q : Nibble} (hq : 4 ≤ q.toNat) : q ≠ 0 ∧ q ≠ 1 ∧ q ≠ 2 ∧ q ≠ 3 := by
  revert q; decide

/-! ### The map is the decoder -/

theorem decodeOp3_of_xy_zero {w : Word} (xy : fieldXY w = 0) : decodeOp3 w = .outs (fieldR w) :=
  if_pos xy

theorem decodeOp6_of_four_le_s {w : Word} (sel : 4 ≤ (fieldS w).toNat) :
    decodeOp6 w = .nop6 (fieldS w) := by
  obtain ⟨ne0, ne1, ne2, ne3⟩ := nibble_ne_of_four_le sel
  rw [decodeOp6, if_neg ne0, if_neg ne1, if_neg ne2, if_neg ne3]

theorem decodeOp7_of_s_zero {w : Word} (sel : fieldS w = 0) : decodeOp7 w = .shl (fieldR w) :=
  if_pos sel

theorem decodeOp7_of_s_one {w : Word} (sel : fieldS w = 1) : decodeOp7 w = .shr (fieldR w) := by
  simp [decodeOp7, sel]

theorem decodeOp9_of_s_zero {w : Word} (sel : fieldS w = 0) : decodeOp9 w = .inp (fieldR w) :=
  if_pos sel

theorem decodeOp9_of_two_le_s {w : Word} (sel : 2 ≤ (fieldS w).toNat) :
    decodeOp9 w = .nop9 (fieldS w) := by
  obtain ⟨ne0, ne1⟩ := nibble_ne_zero_and_ne_one sel
  rw [decodeOp9, if_neg ne0, if_neg ne1]

/-- A word has no row but the decoder's (rule R63). -/
theorem OpcodeMap.decode_eq {w : Word} {i : Instr} (h : OpcodeMap w i) : decode w = i := by
  cases h with
  | load op => exact decode_of_opcode_one op
  | loadImm op => exact decode_of_opcode_two op
  | outs op xy => rw [decode_of_opcode_three op, decodeOp3_of_xy_zero xy]
  | store op xy => rw [decode_of_opcode_three op, decodeOp3_of_xy_ne_zero xy]
  | move op => exact decode_of_opcode_four op
  | add op sel => rw [decode_of_opcode_five op, decodeOp5_of_s_zero sel]
  | sub op sel => rw [decode_of_opcode_five op, decodeOp5_of_s_one sel]
  | nop5 op sel => rw [decode_of_opcode_five op, decodeOp5_of_two_le_s sel]
  | bitAnd op sel => rw [decode_of_opcode_six op, decodeOp6_of_s_zero sel]
  | bitOr op sel => rw [decode_of_opcode_six op, decodeOp6_of_s_one sel]
  | bitXor op sel => rw [decode_of_opcode_six op, decodeOp6_of_s_two sel]
  | bitNot op sel => rw [decode_of_opcode_six op, decodeOp6_of_s_three sel]
  | nop6 op sel => rw [decode_of_opcode_six op, decodeOp6_of_four_le_s sel]
  | shl op sel => rw [decode_of_opcode_seven op, decodeOp7_of_s_zero sel]
  | shr op sel => rw [decode_of_opcode_seven op, decodeOp7_of_s_one sel]
  | nop7 op sel => rw [decode_of_opcode_seven op, decodeOp7_of_two_le_s sel]
  | jz op sel => rw [decode_of_opcode_eight op, decodeOp8_of_s_zero sel]
  | jmp op sel => rw [decode_of_opcode_eight op, decodeOp8_of_s_one sel]
  | nop8 op sel => rw [decode_of_opcode_eight op, decodeOp8_of_two_le_s sel]
  | inp op sel => rw [decode_of_opcode_nine op, decodeOp9_of_s_zero sel]
  | out op sel => rw [decode_of_opcode_nine op, decodeOp9_of_s_one sel]
  | nop9 op sel => rw [decode_of_opcode_nine op, decodeOp9_of_two_le_s sel]
  | jeq op => exact decode_of_opcode_eleven op
  | halt op | invalid0 op | invalid10 op | invalid13 op | invalid14 op | invalid15 op =>
    simp [decode, op]

/-- Every word has a row (rule R63). -/
theorem opcodeMap_total (w : Word) : ∃ i, OpcodeMap w i := by
  obtain op | op | op | op | op | op | op | op | op | op | op | op | op | op | op | op :=
    opcode_cases (opcodeOf w)
  · exact ⟨_, .invalid0 op⟩
  · exact ⟨_, .load op⟩
  · exact ⟨_, .loadImm op⟩
  · by_cases xy : fieldXY w = 0
    · exact ⟨_, .outs op xy⟩
    · exact ⟨_, .store op xy⟩
  · exact ⟨_, .move op⟩
  · obtain sel | sel | sel := selector_cases (fieldS w)
    · exact ⟨_, .add op sel⟩
    · exact ⟨_, .sub op sel⟩
    · exact ⟨_, .nop5 op sel⟩
  · obtain sel | sel | sel | sel | sel := selector6_cases (fieldS w)
    · exact ⟨_, .bitAnd op sel⟩
    · exact ⟨_, .bitOr op sel⟩
    · exact ⟨_, .bitXor op sel⟩
    · exact ⟨_, .bitNot op sel⟩
    · exact ⟨_, .nop6 op sel⟩
  · obtain sel | sel | sel := selector_cases (fieldS w)
    · exact ⟨_, .shl op sel⟩
    · exact ⟨_, .shr op sel⟩
    · exact ⟨_, .nop7 op sel⟩
  · obtain sel | sel | sel := selector_cases (fieldS w)
    · exact ⟨_, .jz op sel⟩
    · exact ⟨_, .jmp op sel⟩
    · exact ⟨_, .nop8 op sel⟩
  · obtain sel | sel | sel := selector_cases (fieldS w)
    · exact ⟨_, .inp op sel⟩
    · exact ⟨_, .out op sel⟩
    · exact ⟨_, .nop9 op sel⟩
  · exact ⟨_, .invalid10 op⟩
  · exact ⟨_, .jeq op⟩
  · exact ⟨_, .halt op⟩
  · exact ⟨_, .invalid13 op⟩
  · exact ⟨_, .invalid14 op⟩
  · exact ⟨_, .invalid15 op⟩

theorem decode_opcodeMap (w : Word) : OpcodeMap w (decode w) := by
  obtain ⟨i, row⟩ := opcodeMap_total w
  rwa [row.decode_eq]

end Sys2Proof
end

section
/-!
PROOF. Encoding and decoding are inverse to each other up to ignored bits, and the decoder follows the opcode
table (30_encoding.md rules R61 to R73).
-/

namespace Sys2Proof

/-! ### A word under the masks of used bits -/

theorem wordRXY_fields (w : Word) : wordRXY (opcodeOf w) (fieldR w) (fieldXY w) = w := by
  unfold wordRXY opcodeOf fieldR fieldXY
  apply BitVec.eq_of_getLsbD_eq
  intro i hi
  simp only [BitVec.getLsbD_extractLsb', BitVec.getLsbD_append]
  interval_cases i <;> simp

/-- AND acts on the four fields apart. -/
theorem wordRST_and (op r s t op' r' s' t' : Nibble) : wordRST op r s t &&& wordRST op' r' s' t' =
    wordRST (op &&& op') (r &&& r') (s &&& s') (t &&& t') := by
  unfold wordRST
  rw [BitVec.and_append, BitVec.and_append, BitVec.and_append]

theorem and_wordRST (w : Word) (op r s t : Nibble) : w &&& wordRST op r s t =
    wordRST (opcodeOf w &&& op) (fieldR w &&& r) (fieldS w &&& s) (fieldT w &&& t) := by
  rw [← wordRST_and, wordRST_fields]

theorem nibble_and_all (q : Nibble) : q &&& 15 = q := BitVec.and_allOnes

theorem nibble_and_none (q : Nibble) : q &&& 0 = 0 := BitVec.and_zero

theorem and_FFFF (w : Word) : w &&& 0xFFFF = w := BitVec.and_allOnes

theorem and_FFF0 (w : Word) : w &&& 0xFFF0 = wordRST (opcodeOf w) (fieldR w) (fieldS w) 0 := 
  (and_wordRST w 15 15 15 0).trans (by simp only [nibble_and_all, nibble_and_none])

theorem and_F0FF (w : Word) : w &&& 0xF0FF = wordRST (opcodeOf w) 0 (fieldS w) (fieldT w) := 
  (and_wordRST w 15 0 15 15).trans (by simp only [nibble_and_all, nibble_and_none])

theorem and_F0F0 (w : Word) : w &&& 0xF0F0 = wordRST (opcodeOf w) 0 (fieldS w) 0 := 
  (and_wordRST w 15 0 15 0).trans (by simp only [nibble_and_all, nibble_and_none])

theorem and_F000 (w : Word) : w &&& 0xF000 = wordRST (opcodeOf w) 0 0 0 := 
  (and_wordRST w 15 0 0 0).trans (by simp only [nibble_and_all, nibble_and_none])

/-- A field that a mask keeps whole is the same in two words that agree under the mask. -/
theorem extractLsb'_eq_of_and_eq {w w' m : Word} {start len : Nat} (agree : w &&& m = w' &&& m)
    (whole : m.extractLsb' start len = BitVec.allOnes len) :
    w'.extractLsb' start len = w.extractLsb' start len := by
  have parts := congrArg (BitVec.extractLsb' start len) agree
  rw [BitVec.extractLsb'_and, BitVec.extractLsb'_and, whole, BitVec.and_allOnes,
    BitVec.and_allOnes] at parts
  exact parts.symm

theorem fields_of_agree_FFF0 {w w' : Word} (agree : w &&& 0xFFF0 = w' &&& 0xFFF0) :
    opcodeOf w' = opcodeOf w ∧ fieldR w' = fieldR w ∧ fieldS w' = fieldS w :=
  ⟨extractLsb'_eq_of_and_eq agree rfl, extractLsb'_eq_of_and_eq agree rfl,
    extractLsb'_eq_of_and_eq agree rfl⟩

theorem fields_of_agree_F0FF {w w' : Word} (agree : w &&& 0xF0FF = w' &&& 0xF0FF) :
    opcodeOf w' = opcodeOf w ∧ fieldS w' = fieldS w ∧ fieldT w' = fieldT w :=
  ⟨extractLsb'_eq_of_and_eq agree rfl, extractLsb'_eq_of_and_eq agree rfl,
    extractLsb'_eq_of_and_eq agree rfl⟩

theorem fields_of_agree_F0F0 {w w' : Word} (agree : w &&& 0xF0F0 = w' &&& 0xF0F0) :
    opcodeOf w' = opcodeOf w ∧ fieldS w' = fieldS w :=
  ⟨extractLsb'_eq_of_and_eq agree rfl, extractLsb'_eq_of_and_eq agree rfl⟩

theorem opcodeOf_of_agree_F000 {w w' : Word} (agree : w &&& 0xF000 = w' &&& 0xF000) :
    opcodeOf w' = opcodeOf w :=
  extractLsb'_eq_of_and_eq agree rfl

/-! ### Encoding and decoding -/

theorem decode_encode {i : Instr} (h : i.wf = true) : decode (encode i) = i := by
  cases i with
  | load r a => simp [encode, decode_of_opcode_one]
  | loadImm r imm => simp [encode, decode_of_opcode_two]
  | outs r => simp [encode, decode_of_opcode_three, decodeOp3_of_xy_zero]
  | store r a =>
    have xy : fieldXY (wordRXY 3 r a) ≠ 0 := by simpa [Instr.wf] using h
    rw [encode, decode_of_opcode_three (opcodeOf_wordRXY 3 r a), decodeOp3_of_xy_ne_zero xy,
      fieldR_wordRXY, fieldXY_wordRXY]
  | move r s => simp [encode, decode_of_opcode_four]
  | add r t => simp [encode, decode_of_opcode_five, decodeOp5_of_s_zero]
  | sub r t => simp [encode, decode_of_opcode_five, decodeOp5_of_s_one]
  | nop5 s =>
    have sel : 2 ≤ s.toNat := by simpa [Instr.wf] using h
    simp [encode, decode_of_opcode_five, decodeOp5_of_two_le_s, sel]
  | bitAnd r t => simp [encode, decode_of_opcode_six, decodeOp6_of_s_zero]
  | bitOr r t => simp [encode, decode_of_opcode_six, decodeOp6_of_s_one]
  | bitXor r t => simp [encode, decode_of_opcode_six, decodeOp6_of_s_two]
  | bitNot r => simp [encode, decode_of_opcode_six, decodeOp6_of_s_three]
  | nop6 s =>
    have sel : 4 ≤ s.toNat := by simpa [Instr.wf] using h
    simp [encode, decode_of_opcode_six, decodeOp6_of_four_le_s, sel]
  | shl r => simp [encode, decode_of_opcode_seven, decodeOp7_of_s_zero]
  | shr r => simp [encode, decode_of_opcode_seven, decodeOp7_of_s_one]
  | nop7 s =>
    have sel : 2 ≤ s.toNat := by simpa [Instr.wf] using h
    simp [encode, decode_of_opcode_seven, decodeOp7_of_two_le_s, sel]
  | jz r t => simp [encode, decode_of_opcode_eight, decodeOp8_of_s_zero]
  | jmp t => simp [encode, decode_of_opcode_eight, decodeOp8_of_s_one]
  | nop8 s =>
    have sel : 2 ≤ s.toNat := by simpa [Instr.wf] using h
    simp [encode, decode_of_opcode_eight, decodeOp8_of_two_le_s, sel]
  | inp r => simp [encode, decode_of_opcode_nine, decodeOp9_of_s_zero]
  | out r => simp [encode, decode_of_opcode_nine, decodeOp9_of_s_one]
  | nop9 s =>
    have sel : 2 ≤ s.toNat := by simpa [Instr.wf] using h
    simp [encode, decode_of_opcode_nine, decodeOp9_of_two_le_s, sel]
  | jeq r s t => simp [encode, decode_of_opcode_eleven]
  | halt | invalid0 | invalid10 | invalid13 | invalid14 | invalid15 => decide

/-- The selector conditions of a row are its instruction's well-formedness. -/
theorem OpcodeMap.wf {w : Word} {i : Instr} (row : OpcodeMap w i) : i.wf = true := by
  cases row with
  | store _ xy => simpa [Instr.wf] using xy
  | nop5 _ sel | nop6 _ sel | nop7 _ sel | nop8 _ sel | nop9 _ sel => exact decide_eq_true sel
  | _ => rfl

/-- The encoding of a row's instruction is the word under the row's mask of used bits. -/
theorem OpcodeMap.encode_eq {w : Word} {i : Instr} (row : OpcodeMap w i) :
    encode i = w &&& i.usedBits := by
  have xy := wordRXY_fields w
  have rst := wordRST_fields w
  cases row with
  | load op | loadImm op | store op _ => simpa only [encode, Instr.usedBits, and_FFFF, op] using xy
  | outs op xy0 => simpa only [encode, Instr.usedBits, and_FFFF, op, xy0] using xy
  | jeq op => simpa only [encode, Instr.usedBits, and_FFFF, op] using rst
  | add op sel | sub op sel | bitAnd op sel | bitOr op sel | bitXor op sel | jz op sel =>
    simpa only [encode, Instr.usedBits, and_FFFF, op, sel] using rst
  | move op => rw [encode, Instr.usedBits, and_FFF0, op]
  | bitNot op sel | shl op sel | shr op sel | inp op sel | out op sel =>
    rw [encode, Instr.usedBits, and_FFF0, op, sel]
  | jmp op sel => rw [encode, Instr.usedBits, and_F0FF, op, sel]
  | nop5 op _ | nop6 op _ | nop7 op _ | nop8 op _ | nop9 op _ =>
    rw [encode, Instr.usedBits, and_F0F0, op]
  | halt op | invalid0 op | invalid10 op | invalid13 op | invalid14 op | invalid15 op =>
    rw [encode, Instr.usedBits, and_F000, op]; rfl

/-- Agreement on the bits a row uses keeps the row: they hold the opcode, the selector and the operands. -/
theorem OpcodeMap.of_agree {w w' : Word} {i : Instr} (row : OpcodeMap w i)
    (agree : w &&& i.usedBits = w' &&& i.usedBits) : OpcodeMap w' i := by
  have own := row
  cases row with
  | load | loadImm | outs | store | add | sub | bitAnd | bitOr | bitXor | jz | jeq =>
    have same : w = w' := by simpa only [Instr.usedBits, and_FFFF] using agree
    exact same ▸ own
  | move op =>
    obtain ⟨op', r', s'⟩ := fields_of_agree_FFF0 agree
    exact r' ▸ s' ▸ .move (op'.trans op)
  | bitNot op sel | shl op sel | shr op sel | inp op sel | out op sel =>
    obtain ⟨op', r', s'⟩ := fields_of_agree_FFF0 agree
    rw [← r']
    constructor
    · exact op'.trans op
    · exact s'.trans sel
  | jmp op sel =>
    obtain ⟨op', s', t'⟩ := fields_of_agree_F0FF agree
    exact t' ▸ .jmp (op'.trans op) (s'.trans sel)
  | nop5 op sel | nop6 op sel | nop7 op sel | nop8 op sel | nop9 op sel =>
    obtain ⟨op', s'⟩ := fields_of_agree_F0F0 agree
    rw [← s'] at sel ⊢
    constructor
    · exact op'.trans op
    · exact sel
  | halt op | invalid0 op | invalid10 op | invalid13 op | invalid14 op | invalid15 op =>
    constructor
    exact (opcodeOf_of_agree_F000 agree).trans op

/-! ### The opcode table -/

/-- The row of spec/opcode_table.json an instruction comes from. -/
def Instr.tableRow : Instr → TableRow
  | .load _ _ => ⟨"LOAD", 0xF000, 0x1000, 1⟩
  | .loadImm _ _ => ⟨"LOAD_IMM", 0xF000, 0x2000, 1⟩
  | .outs _ => ⟨"OUTS", 0xF0FF, 0x3000, 1⟩
  | .store _ _ => ⟨"STORE", 0xF000, 0x3000, 2⟩
  | .move _ _ => ⟨"MOVE", 0xF000, 0x4000, 1⟩
  | .add _ _ => ⟨"ADD", 0xF0F0, 0x5000, 1⟩
  | .sub _ _ => ⟨"SUB", 0xF0F0, 0x5010, 1⟩
  | .nop5 _ => ⟨"NOP5", 0xF000, 0x5000, 2⟩
  | .bitAnd _ _ => ⟨"AND", 0xF0F0, 0x6000, 1⟩
  | .bitOr _ _ => ⟨"OR", 0xF0F0, 0x6010, 1⟩
  | .bitXor _ _ => ⟨"XOR", 0xF0F0, 0x6020, 1⟩
  | .bitNot _ => ⟨"NOT", 0xF0F0, 0x6030, 1⟩
  | .nop6 _ => ⟨"NOP6", 0xF000, 0x6000, 2⟩
  | .shl _ => ⟨"SHL", 0xF0F0, 0x7000, 1⟩
  | .shr _ => ⟨"SHR", 0xF0F0, 0x7010, 1⟩
  | .nop7 _ => ⟨"NOP7", 0xF000, 0x7000, 2⟩
  | .jz _ _ => ⟨"JZ", 0xF0F0, 0x8000, 1⟩
  | .jmp _ => ⟨"JMP", 0xF0F0, 0x8010, 1⟩
  | .nop8 _ => ⟨"NOP8", 0xF000, 0x8000, 2⟩
  | .inp _ => ⟨"IN", 0xF0F0, 0x9000, 1⟩
  | .out _ => ⟨"OUT", 0xF0F0, 0x9010, 1⟩
  | .nop9 _ => ⟨"NOP9", 0xF000, 0x9000, 2⟩
  | .jeq _ _ _ => ⟨"JEQ", 0xF000, 0xB000, 1⟩
  | .halt => ⟨"HALT", 0xF000, 0xC000, 1⟩
  | .invalid0 => ⟨"INVALID", 0xF000, 0x0000, 1⟩
  | .invalid10 => ⟨"INVALID", 0xF000, 0xA000, 1⟩
  | .invalid13 => ⟨"INVALID", 0xF000, 0xD000, 1⟩
  | .invalid14 => ⟨"INVALID", 0xF000, 0xE000, 1⟩
  | .invalid15 => ⟨"INVALID", 0xF000, 0xF000, 1⟩

theorem Instr.tableRow_mnemonic (i : Instr) : i.tableRow.mnemonic = i.mnemonic := by
  cases i <;> rfl

theorem Instr.tableRow_mem (i : Instr) : i.tableRow ∈ opcodeTable := by
  cases i <;> simp [Instr.tableRow, opcodeTable, tableDataMovement, tableAlu, tableControl]

/-- OUTS is the one row whose mask keeps all of XY. -/
theorem and_F0FF_of_xy_zero {w : Word} (xy : fieldXY w = 0) :
    w &&& 0xF0FF = wordRST (opcodeOf w) 0 0 0 := by
  have number := fieldXY_toNat_eq_fieldS_fieldT w
  rw [xy, show (0 : Addr).toNat = 0 from rfl] at number
  have s0 : fieldS w = 0 := BitVec.eq_of_toNat_eq (show _ = 0 by omega)
  have t0 : fieldT w = 0 := BitVec.eq_of_toNat_eq (show _ = 0 by omega)
  rw [and_F0FF, s0, t0]

theorem OpcodeMap.accepts {w : Word} {i : Instr} (row : OpcodeMap w i) :
    i.tableRow.accepts w = true := by
  cases row with
  | outs op xy =>
    simp only [Instr.tableRow, TableRow.accepts, and_F0FF_of_xy_zero xy, op]
    rfl
  | add op sel | sub op sel | bitAnd op sel | bitOr op sel | bitXor op sel | bitNot op sel =>
    simp only [Instr.tableRow, TableRow.accepts, and_F0F0, op, sel]
    rfl
  | shl op sel | shr op sel | jz op sel | jmp op sel | inp op sel | out op sel =>
    simp only [Instr.tableRow, TableRow.accepts, and_F0F0, op, sel]
    rfl
  | load op | loadImm op | store op | move op | nop5 op | nop6 op | nop7 op | nop8 op | nop9 op =>
    simp only [Instr.tableRow, TableRow.accepts, and_F000, op]
    rfl
  | jeq op | halt op | invalid0 op | invalid10 op | invalid13 op | invalid14 op | invalid15 op =>
    simp only [Instr.tableRow, TableRow.accepts, and_F000, op]
    rfl

/-- Two rows that some word matches both. -/
abbrev TableRow.Overlap (row row' : TableRow) : Prop :=
  row.pattern &&& row'.mask = row'.pattern &&& row.mask

theorem TableRow.overlap_of_accepts {row row' : TableRow} {w : Word} (h : row.accepts w = true)
    (h' : row'.accepts w = true) : row.Overlap row' := by
  rw [TableRow.accepts, beq_iff_eq] at h h'
  rw [TableRow.Overlap, ← h, ← h', BitVec.and_assoc, BitVec.and_assoc, BitVec.and_comm row.mask]

/-- No two rows of one priority overlap. -/
theorem opcodeTable_pairwise : opcodeTable.Pairwise fun row row' =>
    row.priority = row'.priority → ¬ row.Overlap row' := by
  decide

theorem eq_of_overlap_of_priority {row row' : TableRow} (hm : row ∈ opcodeTable)
    (hm' : row' ∈ opcodeTable) : row.priority = row'.priority → row.Overlap row' → row = row' := by
  refine List.Pairwise.forall_of_forall_of_flip (l := opcodeTable)
    (R := fun a b => a.priority = b.priority → a.Overlap b → a = b) (fun _ _ _ _ => rfl) ?_ ?_ hm hm'
  · exact opcodeTable_pairwise.imp fun apart prio share => absurd share (apart prio)
  · exact opcodeTable_pairwise.imp fun apart prio share => absurd share.symm (apart prio.symm)

theorem opcodeTable_priority : ∀ row ∈ opcodeTable, row.priority = 1 ∨ row.priority = 2 := by
  decide

theorem TableRow.accepts_extractLsb' {row : TableRow} {w : Word} (h : row.accepts w = true) {start len : Nat} :
    w.extractLsb' start len &&& row.mask.extractLsb' start len = row.pattern.extractLsb' start len := by
  rw [TableRow.accepts, beq_iff_eq] at h
  rw [← h, BitVec.extractLsb'_and]

/-- A row of first priority asks for an opcode, and for a selector that names an instruction where the opcode
also has a row of second priority. -/
theorem opcodeTable_first_priority : ∀ row ∈ opcodeTable, row.priority = 1 →
    opcodeOf row.mask = 15 ∧
    (opcodeOf row.pattern = 3 → fieldXY row.mask = 255 ∧ fieldXY row.pattern = 0) ∧
    (opcodeOf row.pattern ∈ [5, 7, 8, 9] → fieldS row.mask = 15 ∧ (fieldS row.pattern).toNat < 2) ∧
    (opcodeOf row.pattern = 6 → fieldS row.mask = 15 ∧ (fieldS row.pattern).toNat < 4) := by
  decide

theorem TableRow.first_priority_accepts {row : TableRow} {w : Word} (mem : row ∈ opcodeTable)
    (first : row.priority = 1) (h : row.accepts w = true) :
    (opcodeOf w = 3 → fieldXY w = 0) ∧ (opcodeOf w ∈ [5, 7, 8, 9] → (fieldS w).toNat < 2) ∧
    (opcodeOf w = 6 → (fieldS w).toNat < 4) := by
  obtain ⟨opMask, three, fiveToNine, six⟩ := opcodeTable_first_priority row mem first
  have op : opcodeOf w &&& opcodeOf row.mask = opcodeOf row.pattern := TableRow.accepts_extractLsb' h
  have sel : fieldS w &&& fieldS row.mask = fieldS row.pattern := TableRow.accepts_extractLsb' h
  have xy : fieldXY w &&& fieldXY row.mask = fieldXY row.pattern := TableRow.accepts_extractLsb' h
  rw [opMask, nibble_and_all] at op
  rw [op]
  refine ⟨fun hop => ?_, fun hop => ?_, fun hop => ?_⟩
  · obtain ⟨mask, pattern⟩ := three hop
    rw [mask, pattern] at xy
    exact BitVec.and_allOnes.symm.trans xy
  · obtain ⟨mask, pattern⟩ := fiveToNine hop
    rw [mask, nibble_and_all] at sel
    rwa [sel]
  · obtain ⟨mask, pattern⟩ := six hop
    rw [mask, nibble_and_all] at sel
    rwa [sel]

/-- Beside a word's own row no other matches it but at a larger priority number. -/
theorem OpcodeMap.tableRow_first {w : Word} {i : Instr} (row : OpcodeMap w i) {other : TableRow}
    (mem : other ∈ opcodeTable) (h : other.accepts w = true) :
    other = i.tableRow ∨ i.tableRow.priority < other.priority := by
  have same (prio : other.priority = i.tableRow.priority) : other = i.tableRow :=
    eq_of_overlap_of_priority mem i.tableRow_mem prio (TableRow.overlap_of_accepts h row.accepts)
  obtain first | second := opcodeTable_priority other mem
  · obtain ⟨three, fiveToNine, six⟩ := TableRow.first_priority_accepts mem first h
    refine .inl (same ?_)
    cases row with
    | store op xy => exact absurd (three op) xy
    | nop5 op sel | nop7 op sel | nop8 op sel | nop9 op sel =>
      exact absurd (fiveToNine (by rw [op]; decide)) (Nat.not_lt.mpr sel)
    | nop6 op sel => exact absurd (six op) (Nat.not_lt.mpr sel)
    | _ => exact first
  · obtain own | own := opcodeTable_priority _ i.tableRow_mem
    · exact .inr (by omega)
    · exact .inl (same (second.trans own.symm))

/-! ### The obligations -/

/-- Settles O2: each word is evaluated by the decoder. -/
theorem vectorWordsDecodeAsListed : Obligations.VectorWordsDecodeAsListed := by
  unfold Obligations.VectorWordsDecodeAsListed
  decide

/-- Settles O3, by cases on the instruction: its encoding has the opcode and the selector of its row. -/
theorem decodeOfEncodeIsTheInstruction : Obligations.DecodeOfEncodeIsTheInstruction :=
  fun _ => decode_encode

/-- Settles O4, by cases on the word's row in the opcode map. -/
theorem encodeOfDecodeKeepsTheUsedBits : Obligations.EncodeOfDecodeKeepsTheUsedBits := fun w =>
  ⟨(decode_opcodeMap w).wf, (decode_opcodeMap w).encode_eq⟩

/-- Settles O5: the used bits hold all that the opcode map looks at. -/
theorem ignoredBitsDoNotMatter : Obligations.IgnoredBitsDoNotMatter :=
  ⟨fun w _ agree => ((decode_opcodeMap w).of_agree agree).decode_eq, by decide⟩

/-- Settles O6: the row is that of the decoded instruction. -/
theorem decodeFollowsTheOpcodeTable : Obligations.DecodeFollowsTheOpcodeTable := fun w =>
  ⟨(decode w).tableRow, (decode w).tableRow_mem, (decode_opcodeMap w).accepts,
    (decode w).tableRow_mnemonic, fun _ => (decode_opcodeMap w).tableRow_first⟩

end Sys2Proof
end

section
/-!
PROOF. The rest of the instructions: OUTS, SHL, SHR, NOP6, NOP9, IN, HALT and the INVALID rows with their frames
(41_data_movement.md, 42_alu.md, 44_io.md, 45_halt_invalid.md), and addition and subtraction as modular
arithmetic (rule R110).
-/

namespace Sys2Proof.Machine

/-! ### wrap16 as reduction modulo 65536 -/

theorem wrap16_eq_bmod {n : Int} (hlo : -65536 ≤ n) (hhi : n ≤ 65535) : wrap16 n = n.bmod (2 ^ 16) := by
  rw [Int.bmod_def]
  by_cases above : 32767 < n
  · rw [wrap16_of_gt above]
    split <;> omega
  by_cases below : n < -32768
  · rw [wrap16_of_lt below]
    split <;> omega
  · rw [wrap16_of_in_range (by omega) (by omega)]
    split <;> omega

theorem wrap16_eq_toInt {n : Int} (hlo : -65536 ≤ n) (hhi : n ≤ 65535) :
    wrap16 n = (BitVec.ofInt 16 n).toInt := by
  rw [wrap16_eq_bmod hlo hhi, BitVec.toInt_ofInt]

theorem aluAdd_eq_add (a b : Word) : aluAdd a b = a + b := by
  obtain ⟨hlo, hhi⟩ := exact_sum_bounds a b
  apply BitVec.eq_of_toInt_eq
  rw [aluAdd_toInt, BitVec.toInt_add, wrap16_eq_bmod hlo (by omega)]

theorem aluSub_eq_sub (a b : Word) : aluSub a b = a - b := by
  obtain ⟨hlo, hhi⟩ := exact_difference_bounds a b
  apply BitVec.eq_of_toInt_eq
  rw [aluSub_toInt, BitVec.toInt_sub, wrap16_eq_bmod (by omega) hhi]

/-! ### The shifts on patterns -/

theorem aluShl_toNat (a : Word) : (aluShl a).toNat = 2 * a.toNat % 65536 := by
  have low : (a.extractLsb' 0 15 ++ 0#1).toNat = 2 * (a.toNat % 2 ^ 15) := by
    rw [BitVec.toNat_append, BitVec.extractLsb'_toNat, Nat.shiftRight_zero, BitVec.toNat_ofNat,
      Nat.zero_mod, Nat.or_zero, Nat.shiftLeft_eq, Nat.mul_comm, Nat.pow_one]
  rw [aluShl, low]
  omega

/-- SHL is ADD of the register to itself (D3). -/
theorem aluShl_eq_aluAdd (a : Word) : aluShl a = aluAdd a a := by
  apply BitVec.eq_of_toNat_eq
  rw [aluShl_toNat, aluAdd_eq_add, BitVec.toNat_add, Nat.two_mul]

theorem aluShl_toInt (a : Word) : (aluShl a).toInt = wrap16 (2 * a.toInt) := by
  rw [aluShl_eq_aluAdd, aluAdd_toInt, Int.two_mul]

theorem aluShr_getLsbD_low (a : Word) {k : Nat} (hk : k < 15) :
    (aluShr a).getLsbD k = a.getLsbD (k + 1) := by
  refine BitVec.getLsbD_append.trans ?_
  rw [if_pos hk, BitVec.getLsbD_extractLsb', decide_eq_true hk, Bool.true_and, Nat.add_comm]

theorem aluShr_getLsbD_sign (a : Word) : (aluShr a).getLsbD 15 = a.getLsbD 15 := by
  refine BitVec.getLsbD_append.trans ?_
  rw [if_neg (Nat.lt_irrefl 15), BitVec.getLsbD_extractLsb']
  rfl

theorem aluShr_eq_sshiftRight (a : Word) : aluShr a = a.sshiftRight 1 := by
  apply BitVec.eq_of_getLsbD_eq
  intro k hk
  rw [BitVec.getLsbD_sshiftRight]
  by_cases sign : k = 15
  · subst sign
    rw [aluShr_getLsbD_sign, BitVec.msb_eq_getLsbD_last]
    rfl
  · rw [aluShr_getLsbD_low a (by omega), if_pos (by omega), Nat.add_comm]
    simp [hk]

/-- An arithmetic shift by one divides by two and rounds down. -/
theorem aluShr_toInt (a : Word) : (aluShr a).toInt = a.toInt.fdiv 2 := by
  rw [aluShr_eq_sshiftRight, BitVec.toInt_sshiftRight, Int.shiftRight_eq_div_pow,
    Int.fdiv_eq_ediv_of_nonneg _ (by decide)]
  rfl

/-! ### The execute step as one update of the state -/

theorem exec_outs (r : Nibble) (s : State) : exec (.outs r) s = .next (s.emit (s.reg r)) := rfl

theorem exec_shl (r : Nibble) (s : State) :
    exec (.shl r) s = .next (s.setReg r (aluShl (s.reg r))) := rfl

theorem exec_shr (r : Nibble) (s : State) :
    exec (.shr r) s = .next (s.setReg r (aluShr (s.reg r))) := rfl

theorem exec_nop6 (q : Nibble) (s : State) : exec (.nop6 q) s = .next s := reservedSubfield_eq 6 s

theorem exec_nop9 (q : Nibble) (s : State) : exec (.nop9 q) s = .next s := reservedSubfield_eq 9 s

theorem exec_inp_cons (r : Nibble) {s : State} {v : Word} {rest : List Word} (h : s.input = v :: rest) :
    exec (.inp r) s = .next (s.dropInput.setReg r v) := execIn_cons r s v rest h

theorem exec_inp_nil (r : Nibble) {s : State} (h : s.input = []) : exec (.inp r) s = .next s :=
  execIn_nil r s h

theorem exec_halt (s : State) : exec .halt s = .next (s.stop .halt) := rfl

theorem exec_invalid0 (s : State) : exec .invalid0 s = .next (s.stopInvalid 0) := rfl

theorem exec_invalid10 (s : State) : exec .invalid10 s = .next (s.stopInvalid 10) := rfl

theorem exec_invalid13 (s : State) : exec .invalid13 s = .next (s.stopInvalid 13) := rfl

theorem exec_invalid14 (s : State) : exec .invalid14 s = .next (s.stopInvalid 14) := rfl

theorem exec_invalid15 (s : State) : exec .invalid15 s = .next (s.stopInvalid 15) := rfl

/-! ### The obligations -/

/-- Settles O15: OUTS is one output event. -/
theorem outsEmitsTheRegister : Obligations.OutsEmitsTheRegister :=
  ⟨fun _ op xy => (OpcodeMap.outs op xy).decode_eq,
    fun r s => ⟨_, exec_outs r s, s.emit_only (s.reg r)⟩⟩

/-- Settles O18: both wrap16 and the 16-bit pattern are the balanced remainder modulo 65536. -/
theorem wraparoundIsModularArithmetic : Obligations.WraparoundIsModularArithmetic := by
  refine ⟨fun _ => wrap16_eq_toInt, fun r t s => ⟨⟨_, exec_add r t s, ?sum⟩, ⟨_, exec_sub r t s, ?difference⟩⟩⟩
  case sum => rw [State.reg_setReg_same, aluAdd_eq_add]
  case difference => rw [State.reg_setReg_same, aluSub_eq_sub]

/-- Settles O23: SHL is one register write of the doubled pattern, as ADD with R = T is. -/
theorem shlKeepsTheLowBitsOfTheDouble : Obligations.ShlKeepsTheLowBitsOfTheDouble := by
  refine ⟨fun _ op sel => (OpcodeMap.shl op sel).decode_eq, fun r s =>
    ⟨_, exec_shl r s, s.setReg_onlyItsRegister r _, ?unsigned, ?signed, ?add⟩⟩
  case unsigned => rw [State.reg_setReg_same, aluShl_toNat]
  case signed => rw [State.reg_setReg_same, aluShl_toInt]
  case add => rw [exec_add, aluShl_eq_aluAdd]

/-- Settles O24: SHR is one register write of the arithmetic shift. -/
theorem shrHalvesRoundingDown : Obligations.ShrHalvesRoundingDown := by
  refine ⟨fun _ op sel => (OpcodeMap.shr op sel).decode_eq, fun r s =>
    ⟨_, exec_shr r s, s.setReg_onlyItsRegister r _, ?signed, ?sign, fun k hk => ?low⟩⟩
  case signed => rw [State.reg_setReg_same, aluShr_toInt]
  case sign => rw [State.reg_setReg_same, aluShr_getLsbD_sign]
  case low => rw [State.reg_setReg_same, aluShr_getLsbD_low _ hk]

/-- Settles O26: the policy is nop, so the execute step answers the same state. -/
theorem reservedSubfieldsSixNineDoNothing : Obligations.ReservedSubfieldsSixNineDoNothing :=
  ⟨fun _ => ⟨fun op sel => (OpcodeMap.nop6 op sel).decode_eq, fun op sel => (OpcodeMap.nop9 op sel).decode_eq⟩,
    fun q s => ⟨⟨s, exec_nop6 q s, .refl s⟩, ⟨s, exec_nop9 q s, .refl s⟩⟩⟩

/-- Settles O31: IN drops the first value and writes it to its register. -/
theorem inTakesTheNextValue : Obligations.InTakesTheNextValue := by
  refine ⟨fun _ op sel => (OpcodeMap.inp op sel).decode_eq, fun r v rest s input =>
    ⟨_, exec_inp_cons r input, ?_⟩⟩
  obtain ⟨value, regs, cells, pcIr, runControl, -, output⟩ := s.dropInput.setReg_only r v
  exact ⟨value, by simp [input], output, regs, cells, pcIr, runControl⟩

/-- Settles O35: HALT is the shared stop. -/
theorem haltStopsTheRun : Obligations.HaltStopsTheRun :=
  ⟨fun _ op => (OpcodeMap.halt op).decode_eq, fun s => ⟨_, exec_halt s, s.stop_only .halt⟩⟩

/-- Settles O36: each INVALID row is the shared stop that records its opcode. -/
theorem invalidOpcodeStopsAndIsRecorded : Obligations.InvalidOpcodeStopsAndIsRecorded :=
  ⟨fun _ => ⟨fun op => (OpcodeMap.invalid0 op).decode_eq, fun op => (OpcodeMap.invalid10 op).decode_eq,
      fun op => (OpcodeMap.invalid13 op).decode_eq, fun op => (OpcodeMap.invalid14 op).decode_eq,
      fun op => (OpcodeMap.invalid15 op).decode_eq⟩,
    fun s => ⟨⟨_, exec_invalid0 s, s.stopInvalid_only 0⟩, ⟨_, exec_invalid10 s, s.stopInvalid_only 10⟩,
      ⟨_, exec_invalid13 s, s.stopInvalid_only 13⟩, ⟨_, exec_invalid14 s, s.stopInvalid_only 14⟩,
      ⟨_, exec_invalid15 s, s.stopInvalid_only 15⟩⟩⟩

end Sys2Proof.Machine
end

section
/-!
SUPPORT. What an execute step can do, said once as a relation (the rows of rule R22's table, the jumps and the
stops), and the cycle as one equation per case of rule R90. The safety statements are case analyses of these.
-/

namespace Sys2Proof.Machine

/-! ### The effects of an execute step -/

/-- The jumps and their targets (rules R131, R132, R134). -/
inductive JumpTarget : Instr → Pc → Prop
  | jz (r t : Nibble) : JumpTarget (.jz r t) (targetJz t)
  | jmp (t : Nibble) : JumpTarget (.jmp t) (targetJmp t)
  | jeq (r q t : Nibble) : JumpTarget (.jeq r q t) (targetJeq q t)

/-- The INVALID rows and the opcode each records (rule R151). -/
inductive InvalidRow : Instr → Nibble → Prop
  | invalid0 : InvalidRow .invalid0 0
  | invalid10 : InvalidRow .invalid10 10
  | invalid13 : InvalidRow .invalid13 13
  | invalid14 : InvalidRow .invalid14 14
  | invalid15 : InvalidRow .invalid15 15

/-- `Effect i s t`: the execute step of `i` may take `s` to `t`, as one shared update of the state. -/
inductive Effect (i : Instr) (s : State) : State → Prop
  | writesReg (r : Nibble) (v : Word) (written : regWritten i = some r) : Effect i s (s.setReg r v)
  | takesInput (r : Nibble) (v : Word) (rest : List Word) (row : i = .inp r) (input : s.input = v :: rest) :
      Effect i s (s.dropInput.setReg r v)
  | stores (r : Nibble) (a : Addr) (row : i = .store r a) : Effect i s (s.setCell a (s.reg r))
  | emits (r : Nibble) (row : i = .outs r ∨ i = .out r) : Effect i s (s.emit (s.reg r))
  | jumps (p : Pc) (target : JumpTarget i p) : Effect i s (s.setPc p)
  | nothing : Effect i s s
  | halts (row : i = .halt) : Effect i s (s.stop .halt)
  | stopsInvalid (op : Nibble) (row : InvalidRow i op) : Effect i s (s.stopInvalid op)

theorem Effect.of_jumpIf {i : Instr} {p : Pc} (s : State) (taken : Bool) (target : JumpTarget i p) :
    Effect i s (s.jumpIf taken p) := by
  obtain ⟨-, jump⟩ | ⟨-, stay⟩ := s.jumpIf_cases taken p
  · exact jump ▸ .jumps p target
  · exact stay.symm ▸ .nothing

theorem exec_effect {i : Instr} {s t : State} (h : exec i s = .next t) : Effect i s t := by
  have answers {u : State} (eq : exec i s = .next u) (effect : Effect i s u) : Effect i s t := by
    rw [h, Host.Outcome.next.injEq] at eq
    exact eq ▸ effect
  cases i with
  | load r a => exact answers (exec_load r a s) (.writesReg r _ rfl)
  | loadImm r imm => exact answers (exec_loadImm r imm s) (.writesReg r _ rfl)
  | outs r => exact answers (exec_outs r s) (.emits r (.inl rfl))
  | store r a => exact answers (exec_store r a s) (.stores r a rfl)
  | move r q => exact answers (exec_move r q s) (.writesReg r _ rfl)
  | add r q => exact answers (exec_add r q s) (.writesReg r _ rfl)
  | sub r q => exact answers (exec_sub r q s) (.writesReg r _ rfl)
  | nop5 q => exact answers (exec_nop5 q s) .nothing
  | bitAnd r q => exact answers (exec_bitAnd r q s) (.writesReg r _ rfl)
  | bitOr r q => exact answers (exec_bitOr r q s) (.writesReg r _ rfl)
  | bitXor r q => exact answers (exec_bitXor r q s) (.writesReg r _ rfl)
  | bitNot r => exact answers (exec_bitNot r s) (.writesReg r _ rfl)
  | nop6 q => exact answers (exec_nop6 q s) .nothing
  | shl r => exact answers (exec_shl r s) (.writesReg r _ rfl)
  | shr r => exact answers (exec_shr r s) (.writesReg r _ rfl)
  | nop7 q => exact answers (exec_nop7 q s) .nothing
  | jz r q => exact answers (exec_jz r q s) (.of_jumpIf s _ (.jz r q))
  | jmp q => exact answers (exec_jmp q s) (.jumps _ (.jmp q))
  | nop8 q => exact answers (exec_nop8 q s) .nothing
  | inp r =>
    cases input : s.input with
    | nil => exact answers (exec_inp_nil r input) .nothing
    | cons v rest => exact answers (exec_inp_cons r input) (.takesInput r v rest rfl input)
  | out r => exact answers (exec_out r s) (.emits r (.inr rfl))
  | nop9 q => exact answers (exec_nop9 q s) .nothing
  | jeq r q p => exact answers (exec_jeq r q p s) (.of_jumpIf s _ (.jeq r q p))
  | halt => exact answers (exec_halt s) (.halts rfl)
  | invalid0 => exact answers (exec_invalid0 s) (.stopsInvalid 0 .invalid0)
  | invalid10 => exact answers (exec_invalid10 s) (.stopsInvalid 10 .invalid10)
  | invalid13 => exact answers (exec_invalid13 s) (.stopsInvalid 13 .invalid13)
  | invalid14 => exact answers (exec_invalid14 s) (.stopsInvalid 14 .invalid14)
  | invalid15 => exact answers (exec_invalid15 s) (.stopsInvalid 15 .invalid15)

/-! ### What the jumps and the INVALID rows are -/

theorem targetJeq_toNat (q t : Nibble) : (targetJeq q t).toNat = 16 * q.toNat + t.toNat := by
  have := q.isLt
  have := t.isLt
  rw [targetJeq_eq_ofNat, BitVec.toNat_ofNat, Nat.mod_eq_of_lt (by omega)]

/-- The target of JZ is that of a JEQ with S = 0. -/
theorem targetJz_toNat (t : Nibble) : (targetJz t).toNat = t.toNat :=
  (targetJeq_toNat 0 t).trans (Nat.zero_add _)

/-- The target of JMP is that of a JEQ with S = 1. -/
theorem targetJmp_toNat (t : Nibble) : (targetJmp t).toNat = 16 + t.toNat :=
  targetJeq_toNat 1 t

/-- A jump never makes the PC an invalid index (rule R136). -/
theorem JumpTarget.lt {i : Instr} {p : Pc} (target : JumpTarget i p) : p.toNat < 256 := by
  cases target with
  | jz r t =>
    rw [targetJz_toNat]
    omega
  | jmp t =>
    rw [targetJmp_toNat]
    omega
  | jeq r q t =>
    rw [targetJeq_toNat]
    omega

theorem InvalidRow.mem {i : Instr} {op : Nibble} (row : InvalidRow i op) :
    op ∈ ([0, 10, 13, 14, 15] : List Nibble) := by
  cases row <;> decide

theorem InvalidRow.opcodeOf_eq {w : Word} {op : Nibble} (row : InvalidRow (decode w) op) :
    opcodeOf w = op := by
  have own := decode_opcodeMap w
  generalize decode w = i at row own
  cases own with
  | invalid0 opcode | invalid10 opcode | invalid13 opcode | invalid14 opcode | invalid15 opcode =>
    cases row
    exact opcode
  | _ => cases row

theorem opcodeOf_of_decode_halt {w : Word} (h : decode w = .halt) : opcodeOf w = 12 := by
  have own := h ▸ decode_opcodeMap w
  cases own with
  | halt op => exact op

/-- No word is a STORE to cell 0 (rules R47, R67). -/
theorem ne_zero_of_decode_store {w : Word} {r : Nibble} {a : Addr} (h : decode w = .store r a) : a ≠ 0 := by
  have own := h ▸ decode_opcodeMap w
  cases own with
  | store _ xy => exact xy

/-! ### The cycle -/

theorem State.pcInMemory_iff (s : State) : s.pcInMemory = true ↔ s.pc.toNat < 256 := decide_eq_true_iff

theorem State.fetchWord_eq (s : State) : s.fetchWord = s.cell (s.pc.setWidth 8) := rfl

theorem State.pc_succ_toNat {s : State} (pc : s.pc.toNat < 256) : (s.pc + 1).toNat = s.pc.toNat + 1 :=
  BitVec.toNat_add_of_lt (show s.pc.toNat + 1 < 512 by omega)

theorem step_of_halted {s : State} (run : s.run = .halted) : step s = .fault .notRunning := by
  rw [step, cycle, run]

theorem step_of_pc_ge {s : State} (run : s.run = .running) (pc : 256 ≤ s.pc.toNat) :
    step s = .next (s.stop .pcExhausted) := by
  simp [step, cycle, run, State.pcInMemory_iff, pc]

theorem step_of_wait {s : State} (run : s.run = .running) (pc : s.pc.toNat < 256)
    (wait : s.waitsAt s.fetchWord = true) : step s = .next s := by
  simp [step, cycle, run, State.pcInMemory_iff, pc, wait]

theorem step_of_fetch {s : State} (run : s.run = .running) (pc : s.pc.toNat < 256)
    (fetches : ¬ s.waitsAt s.fetchWord = true) : step s = exec (decode s.fetchWord) s.fetch := by
  simp [step, cycle, run, State.pcInMemory_iff, pc, fetches]

theorem step_running_answers_next {s : State} (run : s.run = .running) : ∃ t, step s = .next t := by
  by_cases pc : s.pc.toNat < 256
  · by_cases wait : s.waitsAt s.fetchWord = true
    · exact ⟨s, step_of_wait run pc wait⟩
    · rw [step_of_fetch run pc wait]
      exact exec_answers_next _ _
  · exact ⟨_, step_of_pc_ge run (Nat.not_lt.mp pc)⟩

/-- `step_cases` with the guard as a number and the execute step as an effect. -/
theorem step_effect {s t : State} (h : step s = .next t) : s.run = .running ∧
    ((256 ≤ s.pc.toNat ∧ t = s.stop .pcExhausted) ∨
     (s.pc.toNat < 256 ∧ s.waitsAt s.fetchWord = true ∧ t = s) ∨
     (s.pc.toNat < 256 ∧ ¬ s.waitsAt s.fetchWord = true ∧ Effect (decode s.fetchWord) s.fetch t)) := by
  obtain ⟨run, ⟨guard, stop⟩ | ⟨guard, wait, stay⟩ | ⟨guard, fetches, hexec⟩⟩ := step_cases h
  · have pc : ¬ s.pc.toNat < 256 := by simp [← State.pcInMemory_iff, guard]
    exact ⟨run, .inl ⟨Nat.not_lt.mp pc, stop⟩⟩
  · exact ⟨run, .inr (.inl ⟨s.pcInMemory_iff.mp guard, wait, stay⟩)⟩
  · exact ⟨run, .inr (.inr ⟨s.pcInMemory_iff.mp guard, by simp [fetches], exec_effect hexec⟩)⟩

end Sys2Proof.Machine
end

section
/-!
PROOF. The cycle (40_execution_cycle.md rules R83 to R91): the step as exec of the fetched word, the guard, the
wait, and that the fetch alone writes the IR.
-/

namespace Sys2Proof.Machine

/-- The claims' words for a cycle that is not held. -/
theorem State.not_waitsAt {s : State} {w : Word}
    (h : ¬(opcodeOf w = 9 ∧ fieldS w = 0 ∧ s.input = [])) : ¬ s.waitsAt w = true :=
  mt (s.waitsAt_iff w).mp h

theorem Effect.ir_eq {i : Instr} {s t : State} (effect : Effect i s t) : t.ir = s.ir := by
  cases effect <;> rfl

/-- A cycle that fetches leaves the fetched word in IR. -/
theorem step_ir_of_fetch {s t : State} (h : step s = .next t) (pc : s.pc.toNat < 256)
    (fetches : ¬ s.waitsAt s.fetchWord = true) : t.ir = s.fetchWord := by
  obtain ⟨-, ⟨exhausted, -⟩ | ⟨-, wait, -⟩ | ⟨-, -, effect⟩⟩ := step_effect h
  · omega
  · exact absurd wait fetches
  · exact effect.ir_eq

/-! ### The obligations -/

/-- Settles O7: the cycle's branch that fetches. -/
theorem stepRunsTheDecodedInstruction : Obligations.StepRunsTheDecodedInstruction :=
  fun _ run pc fetches => ⟨State.pc_succ_toNat pc, step_of_fetch run pc (State.not_waitsAt fetches)⟩

/-- Settles O8: the guard's branch is the shared stop. -/
theorem guardStopsWithPcExhausted : Obligations.GuardStopsWithPcExhausted :=
  fun s run pc => ⟨_, step_of_pc_ge run pc, s.stop_only .pcExhausted⟩

/-- Settles O9: the cycle's branch that waits. -/
theorem inWithoutInputHoldsTheState : Obligations.InWithoutInputHoldsTheState :=
  fun s run pc op sel input => step_of_wait run pc ((s.waitsAt_iff _).mpr ⟨op, sel, input⟩)

/-- Settles O10: RUN has two values, and the cycle answers a state or the fault by them. -/
theorem engineStepsExactlyWhileRunning : Obligations.EngineStepsExactlyWhileRunning := by
  intro s
  cases run : s.run with
  | halted => simp [step_of_halted run]
  | running =>
    obtain ⟨t, answer⟩ := step_running_answers_next run
    simp [answer]

/-- Settles O11: no effect of an execute step touches IR, and the fetch sets it. -/
theorem onlyTheFetchWritesIr : Obligations.OnlyTheFetchWritesIr := by
  refine ⟨fun _ _ _ h => (exec_effect h).ir_eq, fun s t h changed => ?changed, fun s t h pc fetches => ?fetched⟩
  case changed =>
    obtain ⟨-, ⟨-, stop⟩ | ⟨-, -, stay⟩ | ⟨pc, fetches, -⟩⟩ := step_effect h
    · exact absurd (stop ▸ rfl) changed
    · exact absurd (stay ▸ rfl) changed
    · exact ⟨pc, step_ir_of_fetch h pc fetches⟩
  case fetched => exact step_ir_of_fetch h pc (State.not_waitsAt fetches)

/-- Settles O56: the fetch overwrites IR before anything reads it. -/
theorem hostValueInIrHasNoEffect : Obligations.HostValueInIrHasNoEffect := by
  intro s v run pc fetches
  have noWait := State.not_waitsAt fetches
  calc step (s.setIr v) = exec (decode s.fetchWord) s.fetch :=
        step_of_fetch (s := s.setIr v) run pc noWait
    _ = step s := (step_of_fetch run pc noWait).symm

end Sys2Proof.Machine
end

section
/-!
PROOF. What steps leave unchanged: the PC but for jumps, the streams but for IN, OUTS and OUT, registers and
cells but for those rule R22's table and STORE name; and that stops are precise.
-/

namespace Sys2Proof.Machine

/-! ### The frame of an execute step, from its effect -/

theorem Effect.pc_eq_or_jump {i : Instr} {s t : State} (effect : Effect i s t) :
    t.pc = s.pc ∨ JumpTarget i t.pc := by
  cases effect with
  | jumps p target => exact .inr target
  | _ => exact .inl rfl

theorem Effect.output_cases {i : Instr} {s t : State} (effect : Effect i s t) :
    t.output = s.output ∨ ∃ r, (i = .outs r ∨ i = .out r) ∧ t.output = s.output ++ [s.reg r] := by
  cases effect with
  | emits r row => exact .inr ⟨r, row, rfl⟩
  | _ => exact .inl rfl

theorem Effect.input_cases {i : Instr} {s t : State} (effect : Effect i s t) :
    t.input = s.input ∨ ∃ r v, i = .inp r ∧ s.input = v :: t.input ∧ t.reg r = v := by
  cases effect with
  | takesInput r v rest row input =>
    exact .inr ⟨r, v, row, by simp [input], State.reg_setReg_same _ r v⟩
  | _ => exact .inl rfl

theorem Effect.reg_eq {i : Instr} {s t : State} (effect : Effect i s t) {j : Nibble}
    (h : regWritten i ≠ some j) : t.reg j = s.reg j := by
  cases effect with
  | writesReg r v written =>
    have other : j ≠ r := by rintro rfl; exact h written
    rw [State.reg_setReg, if_neg other]
  | takesInput r v rest row input =>
    have other : j ≠ r := by rintro rfl; exact h (row ▸ rfl)
    rw [State.reg_setReg, if_neg other]
    rfl
  | _ => rfl

theorem Effect.cell_eq {i : Instr} {s t : State} (effect : Effect i s t) {a : Addr}
    (h : cellStored i ≠ some a) : t.cell a = s.cell a := by
  cases effect with
  | stores r b row =>
    have other : a ≠ b := by rintro rfl; exact h (row ▸ rfl)
    rw [State.cell_setCell, if_neg other]
  | _ => rfl

theorem cellStored_decode_ne_zero (w : Word) : cellStored (decode w) ≠ some 0 := by
  cases row : decode w with
  | store r a =>
    intro zero
    exact ne_zero_of_decode_store row (Option.some.inj zero)
  | _ => exact nofun

/-- The stops among the effects (rules R150, R151): nothing but RUN, STOP_REASON and BAD_OPCODE changes. -/
theorem Effect.stop_cases {i : Instr} {s t : State} (effect : Effect i s t) (run : s.run = .running)
    (halted : t.run = .halted) :
    (i = .halt ∧ OnlyStops .halt s.badOpcode s t) ∨ ∃ op, InvalidRow i op ∧ OnlyStops .invalid op s t := by
  have keeps {u : State} (same : u.run = s.run) (stopped : u.run = .halted) : False := by
    simp [same, run] at stopped
  cases effect with
  | halts row => exact .inl ⟨row, s.stop_only .halt⟩
  | stopsInvalid op row => exact .inr ⟨op, row, s.stopInvalid_only op⟩
  | _ => exact (keeps rfl halted).elim

/-! ### The obligations -/

/-- Settles O30: the one effect that changes the PC is a jump, whose target is known as a number. -/
theorem onlyJumpsChangeThePcWithinReach : Obligations.OnlyJumpsChangeThePcWithinReach := by
  intro i s u h changed
  obtain same | target := (exec_effect h).pc_eq_or_jump
  · exact absurd same changed
  · generalize u.pc = p at target
    cases target with
    | jz r t =>
      rw [targetJz_toNat]
      exact .inl ⟨r, t, rfl, t.isLt⟩
    | jmp t =>
      rw [targetJmp_toNat]
      exact .inr (.inl ⟨t, rfl, by omega, by omega⟩)
    | jeq r q t =>
      rw [targetJeq_toNat]
      exact .inr (.inr ⟨r, q, t, rfl, by omega, by omega⟩)

/-- Settles O33, by cases on the step: only the effect of OUTS and OUT appends. -/
theorem outputTraceOnlyGrowsByOutputs : Obligations.OutputTraceOnlyGrowsByOutputs := by
  intro s t h
  obtain ⟨-, ⟨-, rfl⟩ | ⟨-, -, rfl⟩ | ⟨-, -, effect⟩⟩ := step_effect h
  · exact .inl rfl
  · exact .inl rfl
  · exact effect.output_cases

/-- Settles O34, by cases on the step: only the effect of IN consumes. -/
theorem inputIsConsumedOnlyByIn : Obligations.InputIsConsumedOnlyByIn := by
  intro s t h
  obtain ⟨-, ⟨-, rfl⟩ | ⟨-, -, rfl⟩ | ⟨-, -, effect⟩⟩ := step_effect h
  · exact .inl rfl
  · exact .inl rfl
  · exact effect.input_cases

/-- Settles O37, by cases on the step: the guard's stop, or one of the two stops among the effects. -/
theorem runStopsInThreeWaysOnly : Obligations.RunStopsInThreeWaysOnly := by
  intro s t h halted
  obtain ⟨run, ⟨pc, rfl⟩ | ⟨-, -, rfl⟩ | ⟨pc, -, effect⟩⟩ := step_effect h
  · exact ⟨.refl s, .refl s, ⟨rfl, rfl⟩, .inl ⟨rfl, pc, ⟨rfl, rfl⟩, rfl⟩⟩
  · simp [run] at halted
  · obtain ⟨row, -, reason, bad, regs, cells, ⟨samePc, sameIr⟩, streams⟩ |
      ⟨op, row, -, reason, bad, regs, cells, ⟨samePc, sameIr⟩, streams⟩ := effect.stop_cases run halted
    · refine ⟨regs, cells, streams, .inr ⟨pc, samePc, sameIr, .inl ⟨reason, ?_, bad⟩⟩⟩
      exact sameIr ▸ opcodeOf_of_decode_halt row
    · have opcode : opcodeOf t.ir = op := sameIr ▸ row.opcodeOf_eq
      exact ⟨regs, cells, streams, .inr ⟨pc, samePc, sameIr, .inr ⟨reason, bad.trans opcode.symm,
        opcode ▸ row.mem⟩⟩⟩

/-- Settles O39: the effects that write a register write the one of rule R22's table. -/
theorem onlyTheWrittenRegisterChanges : Obligations.OnlyTheWrittenRegisterChanges :=
  fun _ _ _ h _ other => (exec_effect h).reg_eq other

/-- Settles O41: the one effect on memory is that of STORE, and no word is a STORE to cell 0. -/
theorem onlyStoreChangesMemory : Obligations.OnlyStoreChangesMemory := by
  refine ⟨fun _ _ _ h _ other => (exec_effect h).cell_eq other, fun s t h => ?_⟩
  obtain ⟨-, ⟨-, rfl⟩ | ⟨-, -, rfl⟩ | ⟨-, -, effect⟩⟩ := step_effect h
  · rfl
  · rfl
  · exact effect.cell_eq (cellStored_decode_ne_zero _)

/-- Settles O48: a fetch adds one to a PC below 256, and a jump's target is below 256. -/
theorem stepKeepsThePcAtMost256 : Obligations.StepKeepsThePcAtMost256 := by
  intro s t bound h
  obtain ⟨-, ⟨-, rfl⟩ | ⟨-, -, rfl⟩ | ⟨pc, -, effect⟩⟩ := step_effect h
  · exact bound
  · exact bound
  · obtain same | target := effect.pc_eq_or_jump
    · rw [same, State.fetch_pc, State.pc_succ_toNat pc]
      exact pc
    · exact target.lt.le

/-! ### Address 255 and the next fetch -/

theorem step_of_fetch_of_opcode_ne {s : State} (run : s.run = .running) (pc : s.pc.toNat < 256)
    (op : opcodeOf s.fetchWord ≠ 9) : step s = exec (decode s.fetchWord) s.fetch :=
  step_of_fetch run pc (State.not_waitsAt fun wait => op wait.1)

/-- The opcodes of the INVALID rows decode to them (rule R68). -/
theorem invalidRow_decode {w : Word} (mem : opcodeOf w ∈ ([0, 10, 13, 14, 15] : List Nibble)) :
    InvalidRow (decode w) (opcodeOf w) := by
  simp only [List.mem_cons, List.not_mem_nil, or_false] at mem
  obtain op | op | op | op | op := mem
  · rw [(OpcodeMap.invalid0 op).decode_eq, op]
    exact .invalid0
  · rw [(OpcodeMap.invalid10 op).decode_eq, op]
    exact .invalid10
  · rw [(OpcodeMap.invalid13 op).decode_eq, op]
    exact .invalid13
  · rw [(OpcodeMap.invalid14 op).decode_eq, op]
    exact .invalid14
  · rw [(OpcodeMap.invalid15 op).decode_eq, op]
    exact .invalid15

theorem InvalidRow.exec_eq {i : Instr} {op : Nibble} (row : InvalidRow i op) (s : State) :
    exec i s = .next (s.stopInvalid op) := by
  cases row <;> rfl

/-- Settles O38: at 255 the fetch leaves 256 in the PC, and the execute step is the word's own. -/
theorem lastAddressKeepsTheStopReason : Obligations.LastAddressKeepsTheStopReason := by
  intro s run pc
  have inMemory : s.pc.toNat < 256 := by rw [pc]; decide
  have word : s.fetchWord = s.cell 255 := by rw [State.fetchWord_eq, pc]; rfl
  have next : s.fetch.pc = 256 := by rw [State.fetch_pc, pc]; rfl
  rw [← word]
  refine ⟨fun op => ?halt, fun mem => ?invalid, fun op sel => ?jmp⟩
  case halt =>
    have h := step_of_fetch_of_opcode_ne run inMemory (by rw [op]; decide)
    rw [(OpcodeMap.halt op).decode_eq, exec_halt] at h
    exact ⟨_, h, rfl, rfl, next⟩
  case invalid =>
    have ne : opcodeOf s.fetchWord ≠ 9 := by
      intro op
      rw [op] at mem
      revert mem
      decide
    have h := step_of_fetch_of_opcode_ne run inMemory ne
    rw [(invalidRow_decode mem).exec_eq] at h
    exact ⟨_, h, rfl, rfl, rfl, next⟩
  case jmp =>
    have h := step_of_fetch_of_opcode_ne run inMemory (by rw [op]; decide)
    rw [(OpcodeMap.jmp op sel).decode_eq, exec_jmp] at h
    exact ⟨_, h, run, targetJmp_toNat _⟩

theorem State.fetchAddr_eq_of_pc_toNat {s : State} {a : Addr} (pc : s.pc.toNat = a.toNat) :
    s.fetchAddr = a := by
  apply BitVec.eq_of_toNat_eq
  rw [State.fetchAddr, BitVec.toNat_setWidth, pc, Nat.mod_eq_of_lt a.isLt]

/-- Settles O42: the step is one cell write, and the next fetch reads that cell when the PC is its address. -/
theorem storeIsSeenByTheNextFetch : Obligations.StoreIsSeenByTheNextFetch := by
  intro s t r a run pc row h
  have fetches : ¬ s.waitsAt s.fetchWord = true := by
    intro wait
    obtain ⟨op, sel, -⟩ := (s.waitsAt_iff _).mp wait
    exact absurd ((OpcodeMap.inp op sel).decode_eq.symm.trans row) nofun
  have store : t = s.fetch.setCell a (s.reg r) := by
    rw [step_of_fetch run pc fetches, State.fetchWord_eq, row, exec_store] at h
    exact (Host.Outcome.next.inj h).symm
  have stored : t.cell a = s.reg r := store ▸ s.fetch.cell_setCell_same a _
  refine ⟨store ▸ rfl, stored, fun samePc noWait => ?_⟩
  have word : t.fetchWord = s.reg r := by rw [State.fetchWord, State.fetchAddr_eq_of_pc_toNat samePc, stored]
  have pcNext : t.pc.toNat < 256 := samePc ▸ a.isLt
  obtain ⟨u, next⟩ := step_running_answers_next (s := t) (store ▸ run)
  rw [← word] at noWait
  exact ⟨u, next, (step_ir_of_fetch next pcNext (State.not_waitsAt noWait)).trans word⟩

end Sys2Proof.Machine
end

section
/-!
PROOF. Noninterference (10_state.md rule R22): an execute step depends on no register its row does not read.
-/

namespace Sys2Proof.Machine

/-- What `UnreadRegistersDoNotMatter` claims of one instruction, one state and one other register file. -/
def IgnoresOtherRegs (i : Instr) (s : State) (y : Vector Word 16) : Prop :=
  ∀ t t' : State, exec i s = .next t → exec i (s.withRegs y) = .next t' →
    (∀ j, regWritten i = some j → t'.reg j = t.reg j) ∧ t'.withRegs t.x = t

/-- A register write of the same value, to states that differ in the register file only. -/
theorem IgnoresOtherRegs.of_setReg {i : Instr} {s : State} {y : Vector Word 16} (u : State) (r : Nibble)
    (v : Word) (written : regWritten i = some r) (h : exec i s = .next (u.setReg r v))
    (h' : exec i (s.withRegs y) = .next ((u.withRegs y).setReg r v)) : IgnoresOtherRegs i s y := by
  intro t t' ht ht'
  obtain rfl : u.setReg r v = t := Host.Outcome.next.inj (h.symm.trans ht)
  obtain rfl : (u.withRegs y).setReg r v = t' := Host.Outcome.next.inj (h'.symm.trans ht')
  refine ⟨fun j hj => ?_, rfl⟩
  obtain rfl : r = j := Option.some.inj (written.symm.trans hj)
  rw [State.reg_setReg_same, State.reg_setReg_same]

/-- A register write whose value comes out the same from both register files. -/
theorem IgnoresOtherRegs.of_value {i : Instr} {s : State} {y : Vector Word 16} {r : Nibble} {v : State → Word}
    (written : regWritten i = some r) (h : ∀ u, exec i u = .next (u.setReg r (v u)))
    (same : v (s.withRegs y) = v s) : IgnoresOtherRegs i s y :=
  .of_setReg s r (v s) written (h s) (same ▸ h (s.withRegs y))

/-- The two-address instructions of the ALU. -/
theorem IgnoresOtherRegs.of_combine {i : Instr} {s : State} {y : Vector Word 16} {r q : Nibble}
    {f : Word → Word → Word} (written : regWritten i = some r)
    (h : ∀ u, exec i u = .next (u.setReg r (f (u.reg r) (u.reg q))))
    (read : ∀ j ∈ [r, q], (s.withRegs y).reg j = s.reg j) : IgnoresOtherRegs i s y :=
  .of_value written h (congrArg₂ f (read r (.head _)) (read q (.tail _ (.head _))))

/-- An update that writes no register and is the same for both register files. -/
theorem IgnoresOtherRegs.of_withRegs {i : Instr} {s : State} {y : Vector Word 16} (u : State)
    (unwritten : regWritten i = none) (h : exec i s = .next u)
    (h' : exec i (s.withRegs y) = .next (u.withRegs y)) : IgnoresOtherRegs i s y := by
  intro t t' ht ht'
  obtain rfl : u = t := Host.Outcome.next.inj (h.symm.trans ht)
  obtain rfl : u.withRegs y = t' := Host.Outcome.next.inj (h'.symm.trans ht')
  exact ⟨fun j hj => absurd (unwritten.symm.trans hj) nofun, rfl⟩

theorem State.withRegs_jumpIf (s : State) (y : Vector Word 16) (taken : Bool) (p : Pc) :
    (s.withRegs y).jumpIf taken p = (s.jumpIf taken p).withRegs y := by
  cases taken <;> rfl

theorem State.regIsZero_congr {s s' : State} {r : Nibble} (h : s'.reg r = s.reg r) :
    s'.regIsZero r = s.regIsZero r := by
  rw [State.regIsZero, h, State.regIsZero]

theorem State.regsEqual_congr {s s' : State} {r q : Nibble} (hr : s'.reg r = s.reg r)
    (hq : s'.reg q = s.reg q) : s'.regsEqual r q = s.regsEqual r q := by
  rw [State.regsEqual, hr, hq, State.regsEqual]

theorem exec_ignoresOtherRegs {i : Instr} {s : State} {y : Vector Word 16}
    (input : ∀ r, i = .inp r → s.input ≠ []) (read : ∀ j ∈ regsRead i, (s.withRegs y).reg j = s.reg j) :
    IgnoresOtherRegs i s y := by
  cases i with
  | load r a => exact .of_value rfl (exec_load r a) rfl
  | loadImm r imm => exact .of_value rfl (exec_loadImm r imm) rfl
  | move r q => exact .of_value rfl (exec_move r q) (read q (.head _))
  | add r q => exact .of_combine rfl (exec_add r q) read
  | sub r q => exact .of_combine rfl (exec_sub r q) read
  | bitAnd r q => exact .of_combine rfl (exec_bitAnd r q) read
  | bitOr r q => exact .of_combine rfl (exec_bitOr r q) read
  | bitXor r q => exact .of_combine rfl (exec_bitXor r q) read
  | bitNot r => exact .of_value rfl (exec_bitNot r) (congrArg aluNot (read r (.head _)))
  | shl r => exact .of_value rfl (exec_shl r) (congrArg aluShl (read r (.head _)))
  | shr r => exact .of_value rfl (exec_shr r) (congrArg aluShr (read r (.head _)))
  | inp r =>
    obtain ⟨v, rest, available⟩ := List.exists_cons_of_ne_nil (input r rfl)
    exact .of_setReg s.dropInput r v rfl (exec_inp_cons r available)
      (exec_inp_cons (s := s.withRegs y) r available)
  | outs r => exact .of_withRegs _ rfl (exec_outs r s) (by rw [exec_outs, read r (.head _)]; rfl)
  | out r => exact .of_withRegs _ rfl (exec_out r s) (by rw [exec_out, read r (.head _)]; rfl)
  | store r a => exact .of_withRegs _ rfl (exec_store r a s) (by rw [exec_store, read r (.head _)]; rfl)
  | jz r t =>
    have test := State.regIsZero_congr (read r (.head _))
    exact .of_withRegs _ rfl (exec_jz r t s) (by rw [exec_jz, test, State.withRegs_jumpIf])
  | jeq r q t =>
    have test := State.regsEqual_congr (read r (.head _)) (read q (.tail _ (.head _)))
    exact .of_withRegs _ rfl (exec_jeq r q t s) (by rw [exec_jeq, test, State.withRegs_jumpIf])
  | jmp t => exact .of_withRegs _ rfl (exec_jmp t s) (exec_jmp t _)
  | nop5 | nop6 | nop7 | nop8 | nop9 => exact .of_withRegs s rfl rfl rfl
  | halt | invalid0 | invalid10 | invalid13 | invalid14 | invalid15 => exact .of_withRegs _ rfl rfl rfl

/-- Settles O40, by cases on the instruction: it computes the same update from the registers it reads. -/
theorem unreadRegistersDoNotMatter : Obligations.UnreadRegistersDoNotMatter :=
  fun _ _ t t' _ input read h h' => exec_ignoresOtherRegs input read t t' h h'

end Sys2Proof.Machine
end

section
/-!
PROOF. The invariant and runs (10_state.md sections 6 and 8, 60_exceptions.md section 4): canonical memories are
equal when they read alike, every step and every host operation keeps the invariant, and an induction over runs
carries step facts to runs.
-/

namespace Sys2Proof.Machine

/-! ### Canonical memories -/

/-- In a list of rising addresses each entry is the one its address finds. -/
theorem Memory.mem_iff_lookup {m : Memory} (rising : m.Pairwise (fun b c => b.1 < c.1)) {k : Nat} {v : Word} :
    (k, v) ∈ m ↔ m.lookup k = some v := by
  rw [List.lookup_eq_some_iff]
  constructor
  · intro mem
    obtain ⟨before, after, rfl⟩ := List.append_of_mem mem
    refine ⟨before, after, rfl, fun c hc => ?_⟩
    have lt : c.1 < k := (List.pairwise_append.mp rising).2.2 c hc (k, v) List.mem_cons_self
    exact bne_iff_ne.mpr lt.ne'
  · rintro ⟨before, after, rfl, -⟩
    exact List.mem_append_right before List.mem_cons_self

/-- The entries of a canonical memory are the cells that do not read as an unlisted one. -/
theorem Memory.wf.mem_iff_read {m : Memory} (h : m.wf) {k : Nat} {v : Word} :
    (k, v) ∈ m ↔ k < 256 ∧ v ≠ Memory.unlisted ∧ m.read (BitVec.ofNat 8 k) = v := by
  have addr (hk : k < 256) : (BitVec.ofNat 8 k).toNat = k := Nat.mod_eq_of_lt hk
  constructor
  · intro mem
    obtain ⟨lt, listed⟩ := h.2 (k, v) mem
    refine ⟨lt, listed, ?_⟩
    rw [Memory.read, addr lt, (Memory.mem_iff_lookup h.1).mp mem, Option.getD_some]
  · rintro ⟨lt, listed, read⟩
    rw [Memory.read, addr lt] at read
    rw [Memory.mem_iff_lookup h.1]
    cases found : m.lookup k with
    | none => exact absurd (by rw [← read, found, Option.getD_none]) listed
    | some u => rw [← read, found, Option.getD_some]

theorem Memory.eq_of_read_eq {m m' : Memory} (h : m.wf) (h' : m'.wf) (read : ∀ a, m.read a = m'.read a) :
    m = m' := by
  have : Std.Irrefl fun b c : Nat × Word => b.1 < c.1 := ⟨fun c => Nat.lt_irrefl c.1⟩
  have : Std.Antisymm fun b c : Nat × Word => b.1 < c.1 := ⟨fun _ _ lt gt => absurd gt (Nat.lt_asymm lt)⟩
  refine List.Pairwise.eq_of_mem_iff h.1 h'.1 fun ⟨k, v⟩ => ?_
  rw [h.mem_iff_read, h'.mem_iff_read, read]

/-! ### The invariant under an execute step -/

theorem State.stop_runControlOk {s : State} (h : s.runControlOk) (run : s.run = .running) {c : StopReason}
    (hc : c ≠ .invalid) : (s.stop c).runControlOk := by
  obtain ⟨noStop, bad, -⟩ := h
  exact ⟨nofun, fun _ => bad (by rw [noStop run]; decide), fun invalid => absurd invalid hc⟩

theorem State.stopInvalid_runControlOk (s : State) {op : Nibble}
    (mem : op ∈ ([0, 10, 13, 14, 15] : List Nibble)) : (s.stopInvalid op).runControlOk :=
  ⟨nofun, fun other => absurd rfl other, fun _ => mem⟩

theorem State.Inv.setCell {s : State} (h : s.Inv) (a : Addr) (v : Word) : (s.setCell a v).Inv :=
  ⟨Memory.write_wf h.1 a v, h.2⟩

theorem Effect.inv {i : Instr} {s t : State} (effect : Effect i s t) (run : s.run = .running) (h : s.Inv) :
    t.Inv := by
  cases effect with
  | stores r a => exact h.setCell a _
  | halts => exact ⟨h.1, State.stop_runControlOk h.2 run nofun⟩
  | stopsInvalid op row => exact ⟨h.1, s.stopInvalid_runControlOk row.mem⟩
  | _ => exact h

theorem step_inv {s t : State} (h : s.Inv) (hstep : step s = .next t) : t.Inv := by
  obtain ⟨run, ⟨-, rfl⟩ | ⟨-, -, rfl⟩ | ⟨-, -, effect⟩⟩ := step_effect hstep
  · exact ⟨h.1, State.stop_runControlOk h.2 run nofun⟩
  · exact h
  · exact effect.inv (s := s.fetch) run h

/-- What holds all along a run: the invariant, and that it stops in a final state only. -/
def State.RunInv (s : State) : Prop := s.Inv ∧ (s.run = .halted → s.isFinal)

/-- A step that ends a run records why. -/
theorem step_halted_isFinal {s t : State} (h : step s = .next t) (halted : t.run = .halted) : t.isFinal := by
  obtain ⟨-, -, -, ⟨reason, -⟩ | ⟨-, -, -, ⟨reason, -⟩ | ⟨reason, -⟩⟩⟩ := runStopsInThreeWaysOnly s t h halted
  all_goals exact ⟨halted, by rw [reason]; decide⟩

theorem step_runInv {s t : State} (h : s.RunInv) (next : step s = .next t) : t.RunInv :=
  ⟨step_inv h.1 next, step_halted_isFinal next⟩

/-! ### Runs -/

theorem State.runFor_of_halted {s : State} (run : s.run = .halted) (k : Nat) : s.runFor k = s := by
  cases k with
  | zero => rfl
  | succ k => rw [State.runFor, step_of_halted run]

theorem State.runFor_succ {s t : State} (h : step s = .next t) (k : Nat) : s.runFor (k + 1) = t.runFor k := by
  rw [State.runFor, h]

/-- What every step keeps, every run keeps. -/
theorem State.runFor_induction {P : State → Prop} (hstep : ∀ s t, P s → step s = .next t → P t) (k : Nat)
    {s : State} (h : P s) : P (s.runFor k) := by
  induction k generalizing s with
  | zero => exact h
  | succ k ih =>
    cases run : s.run with
    | halted => rwa [State.runFor_of_halted run]
    | running =>
      obtain ⟨t, next⟩ := step_running_answers_next run
      rw [State.runFor_succ next]
      exact ih (hstep s t h next)

theorem State.runFor_add (s : State) (k j : Nat) : s.runFor (k + j) = (s.runFor k).runFor j := by
  induction k generalizing s with
  | zero => rw [Nat.zero_add, State.runFor]
  | succ k ih =>
    cases run : s.run with
    | halted => simp only [State.runFor_of_halted run]
    | running =>
      obtain ⟨t, next⟩ := step_running_answers_next run
      rw [Nat.add_right_comm, State.runFor_succ next, State.runFor_succ next, ih]

/-- The trace of `s` is the beginning of that of `t`, whose input source is what is left at the back. -/
def StreamsContinue (s t : State) : Prop := s.output <+: t.output ∧ t.input <:+ s.input

theorem StreamsContinue.refl (s : State) : StreamsContinue s s := ⟨List.prefix_rfl, List.suffix_rfl⟩

theorem StreamsContinue.trans {s t u : State} (h : StreamsContinue s t) (h' : StreamsContinue t u) :
    StreamsContinue s u := ⟨h.1.trans h'.1, h'.2.trans h.2⟩

theorem step_streamsContinue {s t : State} (h : step s = .next t) : StreamsContinue s t := by
  constructor
  · obtain same | ⟨r, -, appended⟩ := outputTraceOnlyGrowsByOutputs s t h
    · exact same ▸ List.prefix_rfl
    · exact appended ▸ List.prefix_append _ _
  · obtain same | ⟨r, v, -, consumed, -⟩ := inputIsConsumedOnlyByIn s t h
    · exact same ▸ List.suffix_rfl
    · exact consumed ▸ List.suffix_cons _ _

/-! ### The obligations -/

/-- Settles O44: a canonical list's entries are determined by its reads, and a rising list by its entries. -/
theorem canonicalMemoriesAreEqualWhenTheyReadAlike :
    Obligations.CanonicalMemoriesAreEqualWhenTheyReadAlike := fun _ _ => Memory.eq_of_read_eq

/-- Settles O45: the list is empty and no stop is recorded. -/
theorem resetMeetsTheInvariant : Obligations.ResetMeetsTheInvariant :=
  ⟨State.reset_mem_wf, nofun, fun _ => rfl, nofun⟩

/-- Settles O46, by cases on the step: a STORE keeps the memory canonical, a stop the run control consistent. -/
theorem stepKeepsTheInvariant : Obligations.StepKeepsTheInvariant := fun _ _ => step_inv

/-- Settles O49: a run keeps the invariant together with "halted only in a final state", and stays where it
halts. -/
theorem stoppedRunIsFinalAndStaysSo : Obligations.StoppedRunIsFinalAndStaysSo := by
  intro k s inv run
  have start : s.RunInv := ⟨inv, fun halted => absurd (run.symm.trans halted) nofun⟩
  obtain ⟨inv', final⟩ := State.runFor_induction (fun _ _ => step_runInv) k start
  refine ⟨inv', fun halted => ⟨final halted, fun j => ?_⟩⟩
  rw [State.runFor_add, State.runFor_of_halted halted]

/-- Settles O50: `StreamsContinue` is kept by every step, since it is transitive. -/
theorem runOnlyAppendsOutputAndConsumesInput : Obligations.RunOnlyAppendsOutputAndConsumesInput :=
  fun k s => State.runFor_induction (P := StreamsContinue s)
    (fun _ _ h next => h.trans (step_streamsContinue next)) k (.refl s)

end Sys2Proof.Machine
end

section
/-!
PROOF. The host access port (10_state.md rules R33 to R37, 20_memory.md rule R55, 70_reset_and_hazards.md): what
each operation and each read answers, and that the operations keep the invariant.
-/

namespace Sys2Proof.Machine

/-! ### The two gates of the port -/

theorem hostAllowed_of_running {s : State} (run : s.run = .running) (b : Bool) (s' : State) :
    hostAllowed b s s' = .refused .hostWhileRunning := by
  rw [hostAllowed, run]

theorem hostAllowed_of_halted {s : State} (run : s.run = .halted) {b : Bool} (hb : b = true) (s' : State) :
    hostAllowed b s s' = .next s' := by
  rw [hostAllowed, run, hb]
  rfl

theorem hostAllowed_out_of_range {s : State} (run : s.run = .halted) {b : Bool} (hb : b = false) (s' : State) :
    hostAllowed b s s' = .refused .hostIndexOutOfRange := by
  rw [hostAllowed, run, hb]
  rfl

theorem hostRead_of_running {s : State} (run : s.run = .running) (b : Bool) (v : Word) :
    hostRead b s v = .error .hostWhileRunning := by
  rw [hostRead, run]

theorem hostRead_of_halted {s : State} (run : s.run = .halted) {b : Bool} (hb : b = true) (v : Word) :
    hostRead b s v = .ok v := by
  rw [hostRead, run, hb]
  rfl

theorem hostRead_out_of_range {s : State} (run : s.run = .halted) {b : Bool} (hb : b = false) (v : Word) :
    hostRead b s v = .error .hostIndexOutOfRange := by
  rw [hostRead, run, hb]
  rfl

/-! ### load -/

/-- `load` is a sequence of cell writes: what each keeps, it keeps. -/
theorem State.loadWords_induction {P : State → Prop} (hset : ∀ u a v, P u → P (u.setCell a v))
    (ws : List Word) (start : Nat) {s : State} (h : P s) : P (s.loadWords ws start) := by
  induction ws generalizing s start with
  | nil => exact h
  | cons w ws ih =>
    rw [State.loadWords]
    split
    · exact ih _ (hset s _ w h)
    · exact h

/-- A cell after `load` (rule R55): its word if one falls on it, its old contents otherwise. -/
theorem State.cell_loadWords (ws : List Word) (start : Nat) (s : State) (b : Addr) :
    (s.loadWords ws start).cell b =
      if start ≤ b.toNat then ws[b.toNat - start]?.getD (s.cell b) else s.cell b := by
  have small := b.isLt
  induction ws generalizing s start with
  | nil => simp [State.loadWords]
  | cons w ws ih =>
    rw [State.loadWords]
    split
    · rename_i lt
      have hit : b = BitVec.ofNat 8 start ↔ b.toNat = start := by
        rw [← BitVec.toNat_inj, BitVec.toNat_ofNat, Nat.mod_eq_of_lt (show start < 2 ^ 8 from lt)]
      rw [ih, State.cell_setCell]
      obtain below | here | above := Nat.lt_trichotomy b.toNat start
      · rw [if_neg (by omega), if_neg (mt hit.mp (by omega)), if_neg (by omega)]
      · rw [if_neg (by omega), if_pos (hit.mpr here), if_pos (by omega), here, Nat.sub_self]
        rfl
      · rw [if_pos (by omega), if_neg (mt hit.mp (by omega)), if_pos (by omega),
          show b.toNat - start = b.toNat - (start + 1) + 1 by omega, List.getElem?_cons_succ]
    · rename_i ge
      rw [if_neg fun le => ge (le.trans_lt small)]

/-- Everything but the memory is unchanged. -/
def OnlyMemoryChanges (s t : State) : Prop :=
  SameRegs s t ∧ SamePcIr s t ∧ SameRunControl s t ∧ SameStreams s t

theorem State.loadWords_onlyMemoryChanges (s : State) (ws : List Word) (start : Nat) :
    OnlyMemoryChanges s (s.loadWords ws start) :=
  State.loadWords_induction (P := OnlyMemoryChanges s) (fun _ _ _ same => same) ws start
    ⟨.refl s, ⟨rfl, rfl⟩, ⟨rfl, rfl, rfl⟩, rfl, rfl⟩

/-! ### The invariant under a host operation -/

theorem State.startRun_runControlOk (s : State) : s.startRun.runControlOk :=
  ⟨fun _ => rfl, fun _ => rfl, nofun⟩

theorem State.cleared_inv (s : State) : s.cleared.Inv :=
  ⟨Memory.wf_nil, nofun, fun _ => rfl, nofun⟩

theorem hostOp_inv {op : HostOp} {s t : State} (h : s.Inv) (hop : hostOp op s = .next t) : t.Inv := by
  cases op with
  | setReg i v | setPc p | setIr v =>
    obtain ⟨-, -, rfl⟩ := hostAllowed_cases hop
    exact h
  | setMem a v =>
    obtain ⟨-, -, rfl⟩ := hostAllowed_cases hop
    exact h.setCell _ v
  | reset =>
    obtain ⟨-, -, rfl⟩ := hostAllowed_cases hop
    exact s.cleared_inv
  | load ws start =>
    obtain ⟨-, -, rfl⟩ := hostAllowed_cases hop
    exact State.loadWords_induction (fun _ a v inv => inv.setCell a v) ws start h
  | execute =>
    obtain ⟨-, -, rfl⟩ := hostAllowed_cases hop
    exact ⟨h.1, s.startRun_runControlOk⟩
  | supplyInput v =>
    obtain rfl : s.deliver v = t := Host.Outcome.next.inj hop
    exact h

/-! ### The obligations -/

/-- Settles O47, by cases on the operation. -/
theorem hostOperationsKeepTheInvariant : Obligations.HostOperationsKeepTheInvariant :=
  fun _ _ _ => hostOp_inv

/-- Settles O51: every field of the state at creation is written out. -/
theorem resetStateIsAllZero : Obligations.ResetStateIsAllZero :=
  ⟨State.reset.reg_cleared, State.cell_reset, rfl, rfl, rfl, rfl, rfl, rfl, rfl⟩

theorem State.cleared_eq_reset {s : State} (input : s.input = []) (output : s.output = []) :
    s.cleared = State.reset := by
  rw [State.cleared, State.reset, input, output]

/-- Settles O52: reset is `State.cleared`. -/
theorem hostResetZeroesTheMachine : Obligations.HostResetZeroesTheMachine := fun s run =>
  ⟨s.cleared, hostAllowed_of_halted run rfl _, s.reg_cleared, s.cell_cleared, rfl, rfl, rfl, rfl, rfl,
    ⟨rfl, rfl⟩, State.cleared_eq_reset⟩

/-- Settles O53: execute is `State.startRun`. -/
theorem executeStartsARunAtTheCurrentPc : Obligations.ExecuteStartsARunAtTheCurrentPc := fun s run =>
  ⟨s.startRun, hostAllowed_of_halted run rfl _, rfl, rfl, rfl, .refl s, .refl s, ⟨rfl, rfl⟩, rfl, rfl⟩

/-- Settles O54: the cells by the law of `loadWords`, the rest by induction over its cell writes. -/
theorem loadPlacesWordsInConsecutiveCells : Obligations.LoadPlacesWordsInConsecutiveCells := by
  intro s ws start run inRange
  refine ⟨_, hostAllowed_of_halted run (decide_eq_true inRange) _, fun k w word fits => ?placed,
    fun b outside => ?others, ?rest⟩
  case placed =>
    have addr : (BitVec.ofNat 8 (start + k)).toNat = start + k := Nat.mod_eq_of_lt fits
    rw [State.cell_loadWords, addr, if_pos (Nat.le_add_right start k), Nat.add_sub_cancel_left, word,
      Option.getD_some]
  case others =>
    rw [State.cell_loadWords]
    split
    · rw [List.getElem?_eq_none (by omega), Option.getD_none]
    · rfl
  case rest => exact s.loadWords_onlyMemoryChanges ws start

/-- A host write of an item: set in range, refused out of it. -/
theorem hostAllowed_ite {s s' : State} (run : s.run = .halted) {n bound : Nat} {Q : State → Prop} (h : Q s') :
    if n < bound then ∃ t, hostAllowed (decide (n < bound)) s s' = .next t ∧ Q t
    else hostAllowed (decide (n < bound)) s s' = .refused .hostIndexOutOfRange := by
  split
  · rename_i lt
    exact ⟨s', hostAllowed_of_halted run (decide_eq_true lt) s', h⟩
  · rename_i ge
    exact hostAllowed_out_of_range run (decide_eq_false ge) s'

theorem hostOp_of_running {op : HostOp} {s : State} (run : s.run = .running)
    (notInput : ∀ v, op ≠ .supplyInput v) : hostOp op s = .refused .hostWhileRunning := by
  cases op with
  | supplyInput v => exact absurd rfl (notInput v)
  | _ => exact hostAllowed_of_running run _ _

/-- Settles O55: both gates of the port, and the frame of each update behind it. -/
theorem hostWritesOnlyWhileIdleAndInRange : Obligations.HostWritesOnlyWhileIdleAndInRange := by
  refine ⟨fun _ _ => hostOp_of_running, fun s n v run => ⟨?setReg, ?setMem, ?setPc, ?setIr⟩,
    fun s ws start run tooLarge => ?load, fun s v => ?supplyInput⟩
  case setReg => exact hostAllowed_ite run (s.setReg_only _ v)
  case setMem => exact hostAllowed_ite run (s.setCell_onlyCellBecomes _ v)
  case setPc => exact hostAllowed_ite run (s.setPc_only _)
  case setIr =>
    exact ⟨s.setIr v, hostAllowed_of_halted run rfl _, rfl, rfl, .refl s, .refl s, ⟨rfl, rfl, rfl⟩, rfl, rfl⟩
  case load => exact hostAllowed_out_of_range run (decide_eq_false (Nat.not_lt.mpr tooLarge)) _
  case supplyInput =>
    exact ⟨s.deliver v, rfl, rfl, rfl, .refl s, .refl s, ⟨rfl, rfl⟩, rfl, rfl, rfl⟩

/-- A host read of an item: its value in range, refused out of it. -/
theorem hostRead_ite {s : State} (run : s.run = .halted) (n bound : Nat) (v : Word) :
    if n < bound then hostRead (decide (n < bound)) s v = .ok v
    else hostRead (decide (n < bound)) s v = .error .hostIndexOutOfRange := by
  split
  · rename_i lt
    exact hostRead_of_halted run (decide_eq_true lt) v
  · rename_i ge
    exact hostRead_out_of_range run (decide_eq_false ge) v

/-- Settles O57: both gates of the port. -/
theorem hostReadsGiveTheItemOrRefuse : Obligations.HostReadsGiveTheItemOrRefuse := by
  refine fun s n => ⟨fun run => ?running, fun run => ?idle⟩
  case running =>
    exact ⟨hostRead_of_running run _ _, hostRead_of_running run _ _, hostRead_of_running run _ _,
      hostRead_of_running run _ _⟩
  case idle =>
    exact ⟨hostRead_ite run n 16 _, hostRead_ite run n 256 _,
      ⟨_, hostRead_of_halted run rfl _, BitVec.toNat_setWidth_of_le (by decide)⟩, hostRead_of_halted run rfl _⟩

/-- Settles O58: the register list is the register file, the cell list reads every address. -/
theorem statusShowsRegistersMemoryPcAndIr : Obligations.StatusShowsRegistersMemoryPcAndIr := by
  refine fun s => ⟨by simp [State.status], by simp [State.status, Config.memCells], fun r => ?register,
    fun a => ?cell, rfl, rfl⟩
  case register => simp [State.status, State.reg]
  case cell => simp [State.status, Config.memCells, List.getElem?_range a.isLt]

end Sys2Proof.Machine
end
